-- ==== Sys2Proof/Word.lean ====
section
/-! DEFINITION. The word types of the block (00_scope.md R7) and the truncations of R9. -/

namespace Sys2Proof

/-- A byte: a general register, a timer, SP, a memory cell (R7). -/
abbrev Byte := BitVec 8

/-- A 16-bit word: an instruction word, PC, I, a stack entry (R7). -/
abbrev Word := BitVec 16

/-- The index of a general register, a 4-bit field (10_state.md R15). -/
abbrev RegIdx := BitVec 4

/-- An `addr` field (R7, R11). -/
abbrev Addr := BitVec 12

/-- A nibble of an instruction word (R8). -/
abbrev Nibble := BitVec 4

/-- `trunc_8` of a natural number (R9). -/
def trunc8 (n : Nat) : Byte := BitVec.ofNat 8 n

/-- `trunc_8` of an integer, with the non-negative modulus (R9: `trunc_8(1 - 2) = 0xFF`). -/
def truncInt8 (z : Int) : Byte := BitVec.ofInt 8 z

/-- `trunc_16` of a natural number (R9). -/
def trunc16 (n : Nat) : Word := BitVec.ofNat 16 n

end Sys2Proof
end

