-- ==== Sys2Proof/Syntax.lean ====
section
/-! DEFINITION. The 35 instructions, one constructor per row of spec/opcode_table.json, operands as the fields of
00_scope.md R11 with their exact widths. -/

namespace Sys2Proof

/-- The instruction set (00_scope.md R2). Each constructor cites its rule. -/
inductive Instr where
  /-- 00E0 (R59) -/
  | cls
  /-- 00EE (R64) -/
  | ret
  /-- 0nnn (R65) -/
  | sys (addr : Addr)
  /-- 1nnn (R66) -/
  | jp (addr : Addr)
  /-- 2nnn (R67) -/
  | call (addr : Addr)
  /-- 3xkk (R70) -/
  | seVxKk (x : RegIdx) (kk : Byte)
  /-- 4xkk (R71) -/
  | sneVxKk (x : RegIdx) (kk : Byte)
  /-- 5xy0 (R72) -/
  | seVxVy (x y : RegIdx)
  /-- 6xkk (R78) -/
  | ldVxKk (x : RegIdx) (kk : Byte)
  /-- 7xkk (R79) -/
  | addVxKk (x : RegIdx) (kk : Byte)
  /-- 8xy0 (R80) -/
  | ldVxVy (x y : RegIdx)
  /-- 8xy1 (R81) -/
  | orVxVy (x y : RegIdx)
  /-- 8xy2 (R82) -/
  | andVxVy (x y : RegIdx)
  /-- 8xy3 (R83) -/
  | xorVxVy (x y : RegIdx)
  /-- 8xy4 (R84) -/
  | addVxVy (x y : RegIdx)
  /-- 8xy5 (R85) -/
  | sub (x y : RegIdx)
  /-- 8xy6 (R86); `y` is encoded and not read -/
  | shr (x y : RegIdx)
  /-- 8xy7 (R87) -/
  | subn (x y : RegIdx)
  /-- 8xyE (R88); `y` is encoded and not read -/
  | shl (x y : RegIdx)
  /-- 9xy0 (R73) -/
  | sneVxVy (x y : RegIdx)
  /-- Annn (R90) -/
  | ldI (addr : Addr)
  /-- Bnnn (R68) -/
  | jpV0 (addr : Addr)
  /-- Cxkk (R89) -/
  | rnd (x : RegIdx) (kk : Byte)
  /-- Dxyn (R61) -/
  | drw (x y : RegIdx) (n : Nibble)
  /-- Ex9E (R75) -/
  | skp (x : RegIdx)
  /-- ExA1 (R76) -/
  | sknp (x : RegIdx)
  /-- Fx07 (R97) -/
  | ldVxDt (x : RegIdx)
  /-- Fx0A (R98) -/
  | ldVxK (x : RegIdx)
  /-- Fx15 (R100) -/
  | ldDtVx (x : RegIdx)
  /-- Fx18 (R101) -/
  | ldStVx (x : RegIdx)
  /-- Fx1E (R91) -/
  | addIVx (x : RegIdx)
  /-- Fx29 (R92) -/
  | ldFVx (x : RegIdx)
  /-- Fx33 (R93) -/
  | ldBVx (x : RegIdx)
  /-- Fx55 (R94) -/
  | ldMemVx (x : RegIdx)
  /-- Fx65 (R95) -/
  | ldVxMem (x : RegIdx)
deriving DecidableEq, Repr

end Sys2Proof
end

