-- ==== Sys2Proof/WellFormed.lean ====
section
/-! DEFINITION. Which terms of `Instr` stand for an instruction word. Every field has its exact width as its type, so
one check is left: an exact word of 30_encoding.md R50 has priority over 0nnn. -/

namespace Sys2Proof

/-- The `addr` values that 0nnn cannot have: 0x00E0 is CLS and 0x00EE is RET (30_encoding.md R50; the table's
"excludes" of the row SYS). -/
def sysExcluded (addr : Addr) : Bool := addr == 0x0E0#12 || addr == 0x0EE#12

/-- The check, one arm per constructor. -/
def Instr.wellFormed : Instr → Bool
  | .sys addr => !sysExcluded addr
  | .cls | .ret | .jp _ | .call _ | .seVxKk _ _ | .sneVxKk _ _ | .seVxVy _ _ | .ldVxKk _ _ | .addVxKk _ _
  | .ldVxVy _ _ | .orVxVy _ _ | .andVxVy _ _ | .xorVxVy _ _ | .addVxVy _ _ | .sub _ _ | .shr _ _ | .subn _ _
  | .shl _ _ | .sneVxVy _ _ | .ldI _ | .jpV0 _ | .rnd _ _ | .drw _ _ _ | .skp _ | .sknp _ | .ldVxDt _ | .ldVxK _
  | .ldDtVx _ | .ldStVx _ | .addIVx _ | .ldFVx _ | .ldBVx _ | .ldMemVx _ | .ldVxMem _ => true

/-- `i` stands for an instruction word. -/
abbrev Instr.WellFormed (i : Instr) : Prop := i.wellFormed = true

end Sys2Proof
end

