-- ==== Sys2Proof/Decode.lean ====
section
/-! DEFINITION. The decoder (30_encoding.md R46 to R51), total on any bytes, and after it the encoder, written from
the formats of R47 and the patterns of the opcode table. -/

namespace Sys2Proof

/-! ## The fields of a word (R48, R11) -/

/-- `w[15:12]`, the family nibble. -/
def fieldOp (w : Word) : Nibble := w.extractLsb' 12 4
/-- `w[11:8]`. -/
def fieldX (w : Word) : RegIdx := w.extractLsb' 8 4
/-- `w[7:4]`. -/
def fieldY (w : Word) : RegIdx := w.extractLsb' 4 4
/-- `w[3:0]`. -/
def fieldN (w : Word) : Nibble := w.extractLsb' 0 4
/-- `w[7:0]`. -/
def fieldKk (w : Word) : Byte := w.extractLsb' 0 8
/-- `w[11:0]`. -/
def fieldAddr (w : Word) : Addr := w.extractLsb' 0 12

/-! ## Decoding -/

/-- Why bytes are no instruction. -/
inductive DecodeError where
  /-- Fewer than the two bytes of an instruction word (R46). -/
  | truncated
  /-- A word that no pattern of R50 matches (R51). What the machine does with it is R52's. -/
  | unrecognized (w : Word)
deriving DecidableEq, Repr

/-- Family 8: the selector is `w[3:0]` (R50). -/
def decode8 (w : Word) (x y : RegIdx) : Except DecodeError Instr :=
  match (fieldN w).toNat with
  | 0x0 => .ok (.ldVxVy x y)
  | 0x1 => .ok (.orVxVy x y)
  | 0x2 => .ok (.andVxVy x y)
  | 0x3 => .ok (.xorVxVy x y)
  | 0x4 => .ok (.addVxVy x y)
  | 0x5 => .ok (.sub x y)
  | 0x6 => .ok (.shr x y)
  | 0x7 => .ok (.subn x y)
  | 0xE => .ok (.shl x y)
  | _ => .error (.unrecognized w)

/-- Family E: the selector is `w[7:0]` (R50). -/
def decodeE (w : Word) (x : RegIdx) : Except DecodeError Instr :=
  match (fieldKk w).toNat with
  | 0x9E => .ok (.skp x)
  | 0xA1 => .ok (.sknp x)
  | _ => .error (.unrecognized w)

/-- Family F: the selector is `w[7:0]` (R50). -/
def decodeF (w : Word) (x : RegIdx) : Except DecodeError Instr :=
  match (fieldKk w).toNat with
  | 0x07 => .ok (.ldVxDt x)
  | 0x0A => .ok (.ldVxK x)
  | 0x15 => .ok (.ldDtVx x)
  | 0x18 => .ok (.ldStVx x)
  | 0x1E => .ok (.addIVx x)
  | 0x29 => .ok (.ldFVx x)
  | 0x33 => .ok (.ldBVx x)
  | 0x55 => .ok (.ldMemVx x)
  | 0x65 => .ok (.ldVxMem x)
  | _ => .error (.unrecognized w)

/-- Family 0: the two exact words before 0nnn (R50, C2). -/
def decode0 (w : Word) : Instr :=
  if w = 0x00E0#16 then .cls else if w = 0x00EE#16 then .ret else .sys (fieldAddr w)

/-- Dispatch on the family nibble, then within the family (R50). A nibble has no value above 15: the last arm is never
taken. -/
def decodeWord (w : Word) : Except DecodeError Instr :=
  match (fieldOp w).toNat with
  | 0x0 => .ok (decode0 w)
  | 0x1 => .ok (.jp (fieldAddr w))
  | 0x2 => .ok (.call (fieldAddr w))
  | 0x3 => .ok (.seVxKk (fieldX w) (fieldKk w))
  | 0x4 => .ok (.sneVxKk (fieldX w) (fieldKk w))
  | 0x5 => if fieldN w = 0#4 then .ok (.seVxVy (fieldX w) (fieldY w)) else .error (.unrecognized w)
  | 0x6 => .ok (.ldVxKk (fieldX w) (fieldKk w))
  | 0x7 => .ok (.addVxKk (fieldX w) (fieldKk w))
  | 0x8 => decode8 w (fieldX w) (fieldY w)
  | 0x9 => if fieldN w = 0#4 then .ok (.sneVxVy (fieldX w) (fieldY w)) else .error (.unrecognized w)
  | 0xA => .ok (.ldI (fieldAddr w))
  | 0xB => .ok (.jpV0 (fieldAddr w))
  | 0xC => .ok (.rnd (fieldX w) (fieldKk w))
  | 0xD => .ok (.drw (fieldX w) (fieldY w) (fieldN w))
  | 0xE => decodeE w (fieldX w)
  | 0xF => decodeF w (fieldX w)
  | _ => .error (.unrecognized w)

/-- The word of two bytes, the first one most significant (20_memory.md R39). -/
def wordOfBytes (hi lo : Byte) : Word := hi ++ lo

/-- The two bytes of a word in memory order (20_memory.md R39). -/
def bytesOfWord (w : Word) : List Byte := [w.extractLsb' 8 8, w.extractLsb' 0 8]

/-- The instruction at the head of a list of bytes and the bytes after it: always 2 bytes are consumed (R46). -/
def decode : List Byte → Except DecodeError (Instr × List Byte)
  | hi :: lo :: rest =>
    match decodeWord (wordOfBytes hi lo) with
    | .ok i => .ok (i, rest)
    | .error e => .error e
  | [_] => .error .truncated
  | [] => .error .truncated

/-- The host's view of the decoder: the one word of an instruction, laid out as the hardware stores it and decoded. Bits
from `nbits` on are 0. -/
def decodeTableWord (nbits w : Nat) : Option Instr :=
  match decode (bytesOfWord (trunc16 (w % 2 ^ nbits))) with
  | .ok (i, _) => some i
  | .error _ => none

/-! ## Encoding -/

/-- Format `NNN` (R47). -/
def fmtNNN (op : Nibble) (addr : Addr) : Word := op ++ addr
/-- Format `XKK` (R47). -/
def fmtXKK (op : Nibble) (x : RegIdx) (kk : Byte) : Word := op ++ x ++ kk
/-- Formats `XY` and `XYN` (R47): the last nibble is the sub-opcode or the row count. -/
def fmtXYN (op : Nibble) (x y : RegIdx) (n : Nibble) : Word := op ++ x ++ y ++ n
/-- Format `X` (R47): the low byte is the sub-byte. -/
def fmtX (op : Nibble) (x : RegIdx) (sub : Byte) : Word := op ++ x ++ sub

/-- The word of a well-formed instruction, from the patterns of R50 and the formats of R47. -/
def encode : Instr → Word
  | .cls => 0x00E0#16
  | .ret => 0x00EE#16
  | .sys addr => fmtNNN 0x0#4 addr
  | .jp addr => fmtNNN 0x1#4 addr
  | .call addr => fmtNNN 0x2#4 addr
  | .seVxKk x kk => fmtXKK 0x3#4 x kk
  | .sneVxKk x kk => fmtXKK 0x4#4 x kk
  | .seVxVy x y => fmtXYN 0x5#4 x y 0x0#4
  | .ldVxKk x kk => fmtXKK 0x6#4 x kk
  | .addVxKk x kk => fmtXKK 0x7#4 x kk
  | .ldVxVy x y => fmtXYN 0x8#4 x y 0x0#4
  | .orVxVy x y => fmtXYN 0x8#4 x y 0x1#4
  | .andVxVy x y => fmtXYN 0x8#4 x y 0x2#4
  | .xorVxVy x y => fmtXYN 0x8#4 x y 0x3#4
  | .addVxVy x y => fmtXYN 0x8#4 x y 0x4#4
  | .sub x y => fmtXYN 0x8#4 x y 0x5#4
  | .shr x y => fmtXYN 0x8#4 x y 0x6#4
  | .subn x y => fmtXYN 0x8#4 x y 0x7#4
  | .shl x y => fmtXYN 0x8#4 x y 0xE#4
  | .sneVxVy x y => fmtXYN 0x9#4 x y 0x0#4
  | .ldI addr => fmtNNN 0xA#4 addr
  | .jpV0 addr => fmtNNN 0xB#4 addr
  | .rnd x kk => fmtXKK 0xC#4 x kk
  | .drw x y n => fmtXYN 0xD#4 x y n
  | .skp x => fmtX 0xE#4 x 0x9E#8
  | .sknp x => fmtX 0xE#4 x 0xA1#8
  | .ldVxDt x => fmtX 0xF#4 x 0x07#8
  | .ldVxK x => fmtX 0xF#4 x 0x0A#8
  | .ldDtVx x => fmtX 0xF#4 x 0x15#8
  | .ldStVx x => fmtX 0xF#4 x 0x18#8
  | .addIVx x => fmtX 0xF#4 x 0x1E#8
  | .ldFVx x => fmtX 0xF#4 x 0x29#8
  | .ldBVx x => fmtX 0xF#4 x 0x33#8
  | .ldMemVx x => fmtX 0xF#4 x 0x55#8
  | .ldVxMem x => fmtX 0xF#4 x 0x65#8

end Sys2Proof
end

