-- ==== Sys2Proof/Config.lean ====
section
/-! DEFINITION. The parameters of the block (00_scope.md R6): the fixed ones as constants, the ones at the
config ports (10_state.md R31) as a structure, with this hardware's values; and the model's free value. -/

namespace Sys2Proof

/-- `MEM_SIZE`, bytes of addressable memory (R6, fixed). -/
def memSize : Nat := 4096

/-- `PROG_BASE`, load address of the program image and PC at reset (R6, fixed). -/
def progBase : Nat := 0x200

/-- `FONT_BASE`, address of glyph 0 (R6, fixed). -/
def fontBase : Nat := 0

/-- `STACK_DEPTH`, entries of the return-address stack (R6, fixed). -/
def stackDepth : Nat := 16

/-- `TIMER_HZ` (R6, fixed): a duty of the platform (60_exceptions.md R111); no definition reads it
(log 12). -/
def timerHz : Nat := 60

/-- The values at the config ports (10_state.md R31). No event writes them. -/
structure Config where
  /-- `STRICT_DECODE`: an unrecognized word is fatal instead of a no-op (30_encoding.md R52). -/
  strictDecode : Bool
  /-- `FONT`: the glyph bytes, glyph `d` in bytes `5d .. 5d+4` (20_memory.md R37). -/
  font : Vector Byte 80
  /-- `FB_W`: framebuffer width in pixels. -/
  fbW : Nat
  /-- `FB_H`: framebuffer height in pixels. -/
  fbH : Nat
deriving DecidableEq, Repr

/-- The glyphs of the digits 0 to 7, rows 0..4 each (20_memory.md R37). PRESUMED (log 3): the spec supplies the
bytes from general knowledge, not from its source. -/
def glyphs0to7 : List Byte :=
  [0xF0, 0x90, 0x90, 0x90, 0xF0] ++ [0x20, 0x60, 0x20, 0x20, 0x70] ++
  [0xF0, 0x10, 0xF0, 0x80, 0xF0] ++ [0xF0, 0x10, 0xF0, 0x10, 0xF0] ++
  [0x90, 0x90, 0xF0, 0x10, 0x10] ++ [0xF0, 0x80, 0xF0, 0x10, 0xF0] ++
  [0xF0, 0x80, 0xF0, 0x90, 0xF0] ++ [0xF0, 0x10, 0x20, 0x40, 0x40]

/-- The glyphs of the digits 8 to F, rows 0..4 each (20_memory.md R37). PRESUMED (log 3). -/
def glyphs8toF : List Byte :=
  [0xF0, 0x90, 0xF0, 0x90, 0xF0] ++ [0xF0, 0x90, 0xF0, 0x10, 0xF0] ++
  [0xF0, 0x90, 0xF0, 0x90, 0x90] ++ [0xE0, 0x90, 0xE0, 0x90, 0xE0] ++
  [0xF0, 0x80, 0x80, 0x80, 0xF0] ++ [0xE0, 0x90, 0x90, 0x90, 0xE0] ++
  [0xF0, 0x80, 0xF0, 0x80, 0xF0] ++ [0xF0, 0x80, 0xF0, 0x80, 0x80]

/-- This hardware's `FONT` (20_memory.md R37). -/
def defaultFont : Vector Byte 80 := ⟨(glyphs0to7 ++ glyphs8toF).toArray, rfl⟩

/-- This hardware's values (R6). -/
def Config.hardware : Config :=
  { strictDecode := false, font := defaultFont, fbW := 64, fbH := 32 }

/-- The framebuffer has at least one pixel: what the mapping of 40_display.md R60 (`mod FB_W`, `mod FB_H`) needs. -/
abbrev Config.Valid (c : Config) : Prop := 0 < c.fbW ∧ 0 < c.fbH

/-- FREE VALUE (log 4). The byte on the port `rand_byte` at the `n`-th draw of Cxkk (10_state.md R29: "a free draw of
any value"): no body, so no proof can know it. -/
opaque Config.freeRandByte : Nat → Byte

end Sys2Proof
end

