-- ==== Sys2Proof/Machine/State.lean ====
section
/-! DEFINITION. The state of the block as plain data (10_state.md), the events that change it (R14), the reasons a step
can stop, and the state after reset (70_reset_and_hazards.md R118). -/

namespace Sys2Proof.Machine

/-- The mode of the cadence controller (10_state.md R23). -/
inductive Mode where
  | running
  | awaitingKey
  | halted
deriving DecidableEq, Repr

/-- The events that change the state (10_state.md R14). -/
inductive Event where
  /-- `InstrEvent`, one tick of the instruction cadence (30_encoding.md R56). -/
  | instr
  /-- `TimerEvent`, one elapsed 1/60 s interval (60_exceptions.md R110). -/
  | timer
  /-- `KeysEvent(k)`, bit `i` of `k` being key `i` (60_exceptions.md R113). -/
  | keys (k : BitVec 16)
  /-- `ResetEvent` (70_reset_and_hazards.md R118). -/
  | reset
  /-- `LoadEvent(bytes)` (70_reset_and_hazards.md R119). -/
  | load (bytes : List Byte)
deriving DecidableEq, Repr

/-- The fault record (10_state.md R25). -/
structure FaultRecord where
  /-- `fault_code`, 3 bits (60_exceptions.md R102). -/
  code : BitVec 3
  /-- `fault_pc`. -/
  pc : Word
  /-- `fault_instr`. -/
  instr : Word
  /-- `fault_instr_valid`. -/
  instrValid : Bool
  /-- `fault_addr`. -/
  addr : Word
deriving DecidableEq, Repr

/-- The record with all fields 0: no fatal condition has occurred (R25). -/
def FaultRecord.none : FaultRecord := { code := 0, pc := 0, instr := 0, instrValid := false, addr := 0 }

/-- The Addressable Memory (20_memory.md R33): the cells that differ from their reset contents, by rising address. -/
abbrev Memory := List Host.Cell

/-- The framebuffer (10_state.md R26), a list of rows, each a list of pixels. -/
abbrev Framebuffer := List (List Bool)

/-- The state. The fields from `v` to `mem` are the spec's; `cfg` holds the values at the config ports (log 2); the last
four are the model's own (log 1, 4, 6, 7). -/
structure State where
  /-- `V0`..`VF` (R15). -/
  v : Vector Byte 16
  /-- `PC` (R18). -/
  pc : Word
  /-- `I` (R21). -/
  iReg : Word
  /-- `SP`, the number of return addresses on the stack (R19). -/
  sp : Byte
  /-- `stack[0]`..`stack[15]` (R20). -/
  stack : Vector Word 16
  /-- `DT` (R22). -/
  dt : Byte
  /-- `ST` (R22). -/
  st : Byte
  /-- `mode` (R23). -/
  mode : Mode
  /-- `wait_reg` (R24). -/
  waitReg : RegIdx
  /-- The fault record (R25). -/
  fault : FaultRecord
  /-- `fb` (R26). -/
  fb : Framebuffer
  /-- `keys[0]`..`keys[15]` (R27). -/
  keys : Vector Bool 16
  /-- `audio_on` (R28). -/
  audioOn : Bool
  /-- `frame_ready`: whether it pulsed at the end of the event just completed (R30, log 5). -/
  frameReady : Bool
  /-- The memory (R33). -/
  mem : Memory
  /-- The values at the config ports (R31, 00_scope.md R6). -/
  cfg : Config
  /-- How many random bytes have been drawn: the index of the next free value (log 4). -/
  randDraws : Nat
  /-- No `InstrEvent` since the last `ResetEvent`: a `LoadEvent` is admitted (R119, log 7). -/
  loadWindow : Bool
  /-- The event just completed was a load that failed: the host-visible `LoadTooLarge` (R119, log 6). -/
  loadTooLarge : Bool
  /-- The events the environment delivers next; after them, `InstrEvent`s (R14, log 1). -/
  schedule : List Event
deriving DecidableEq, Repr

/-- Faults. A fatal condition of the spec (60_exceptions.md R102) is none of these: its entry is a next state. -/
inductive Fault where
  /-- Raised by CALL and RET in a state with `SP > 16`, where the stack entry they name does not exist and no rule gives
  an effect; 10_state.md R19 says that no run reaches such a state. SAFE: the model stops (log 8). -/
  | stackPointerOutOfRange
deriving DecidableEq, Repr

/-- Refusals. -/
inductive Refusal where
  /-- An instruction without a meaning: raised only by `exec`'s arms. SAFE. Every instruction has its meaning, so nothing
  raises it. -/
  | notModelled (mnemonic : String)
  /-- A `LoadEvent` after the first `InstrEvent` since reset: "a load at any other time is outside this spec and a model
  refuses it" (70_reset_and_hazards.md R119). Raised by the load event. SAFE. -/
  | loadOutsideWindow
deriving DecidableEq, Repr

/-- Every pixel false, at the configured size (R26, R118). -/
def blankFramebuffer (c : Config) : Framebuffer := List.replicate c.fbH (List.replicate c.fbW false)

/-- The values of R118, around what a reset does not change: the config ports, the keys ("not changed by reset"), the
count of random draws and the events to come. -/
def State.afterReset (cfg : Config) (keys : Vector Bool 16) (randDraws : Nat) (schedule : List Event) : State :=
  { v := Vector.replicate 16 0
    pc := 0x200
    iReg := 0
    sp := 0
    stack := Vector.replicate 16 0
    dt := 0
    st := 0
    mode := .running
    waitReg := 0
    fault := FaultRecord.none
    fb := blankFramebuffer cfg
    keys := keys
    audioOn := false
    frameReady := false
    mem := []
    cfg := cfg
    randDraws := randDraws
    loadWindow := true
    loadTooLarge := false
    schedule := schedule }

/-- This hardware right after its first `ResetEvent` (R118): no `KeysEvent` yet, so all keys false; nothing loaded; and an
environment that delivers `InstrEvent`s. -/
def State.reset : State := State.afterReset Config.hardware (Vector.replicate 16 false) 0 []

end Sys2Proof.Machine
end

