-- ==== Sys2Proof/Machine/Ops.lean ====
section
/-! DEFINITION. The named operations over registers, memory, keys, framebuffer and the fault record, and the primitives of
00_scope.md R10. -/

namespace Sys2Proof.Machine

/-- What a meaning answers. -/
abbrev Outcome := Host.Outcome State Fault Refusal

/-! ## Registers -/

/-- `V[x]`. -/
def State.getV (s : State) (x : RegIdx) : Byte := s.v[x.toNat]

/-- `V[x] <- b`. No register is hardwired (10_state.md R15). -/
def State.setV (s : State) (x : RegIdx) (b : Byte) : State := { s with v := s.v.set x.toNat b }

/-- The index of VF (10_state.md R16). -/
def vf : RegIdx := 0xF#4

/-- `I <- w`. -/
def State.setI (s : State) (w : Word) : State := { s with iReg := w }

/-- `PC <- w`: the end of an instruction's rule, `w` being its `next_pc` (30_encoding.md R55). -/
def State.setPc (s : State) (w : Word) : State := { s with pc := w }

/-- `trunc_16(PC + k)`. -/
def State.pcPlus (s : State) (k : Nat) : Word := trunc16 (s.pc.toNat + k)

/-- The default `next_pc` (30_encoding.md R55). -/
def State.advance (s : State) : State := s.setPc (s.pcPlus 2)

/-- A skip's `next_pc` (42_skips.md R69). -/
def State.skipIf (s : State) (cond : Bool) : State := s.setPc (s.pcPlus (if cond then 4 else 2))

/-- `V[k], V[k+1], … <- bytes` in this order (44_index_memory.md R95); an index is a 4-bit field. -/
def State.loadV (s : State) (k : Nat) : List Byte → State
  | [] => s
  | b :: bs => (s.setV (BitVec.ofNat 4 k) b).loadV (k + 1) bs

/-- `V[0], …, V[x]` (44_index_memory.md R94). -/
def State.lowRegs (s : State) (x : RegIdx) : List Byte := s.v.toList.take (x.toNat + 1)

/-! ## Memory -/

/-- The reset contents of a cell (70_reset_and_hazards.md R118): `FONT` at 0x000..0x04F, 0x00 elsewhere. It is what an
address that memory does not list reads as (log 10). -/
def resetByte (c : Config) (a : Nat) : Byte :=
  if h : fontBase ≤ a ∧ a < fontBase + 80 then c.font[a - fontBase] else 0

/-- The byte the list holds for an address, if it lists it. -/
def Memory.lookup : Memory → Nat → Option Byte
  | [], _ => none
  | (k, b) :: m, a => if k = a then some b else Memory.lookup m a

/-- Put byte `b` at address `a`, `bg` being the reset contents there: the list stays rising, and holds no entry for a cell
that has its reset contents. -/
def Memory.put (bg : Byte) : Memory → Nat → Byte → Memory
  | [], a, b => if b = bg then [] else [(a, b)]
  | (k, c) :: m, a, b =>
    if a < k then (if b = bg then (k, c) :: m else (a, b) :: (k, c) :: m)
    else if a = k then (if b = bg then m else (a, b) :: m)
    else (k, c) :: Memory.put bg m a b

/-- The canonical form: addresses strictly rising, all of them cells, no cell with its reset contents listed. -/
abbrev Memory.wf (c : Config) (m : Memory) : Prop :=
  m.Pairwise (fun p q => p.1 < q.1) ∧ ∀ p ∈ m, p.1 < memSize ∧ p.2 ≠ resetByte c p.1

/-- The byte in cell `a` (for `a < 4096`; 20_memory.md R33). -/
def State.byteAt (s : State) (a : Nat) : Byte := (Memory.lookup s.mem a).getD (resetByte s.cfg a)

/-- Cell `a <- b` (for `a < 4096`). -/
def State.putByte (s : State) (a : Nat) (b : Byte) : State :=
  { s with mem := Memory.put (resetByte s.cfg a) s.mem a b }

/-- Cells `a, a+1, … <- bytes` in this order. -/
def State.putBytes (s : State) (a : Nat) : List Byte → State
  | [] => s
  | b :: bs => (s.putByte a b).putBytes (a + 1) bs

/-! ## Fatal conditions (60_exceptions.md) -/

/-- The fatal conditions with what R102 says they carry. -/
inductive FatalCondition where
  | outOfRangeAddress (a : Nat)
  | stackUnderflow
  | stackOverflow
  | invalidDigit (v : Byte)
  | invalidKey (v : Byte)
  | unrecognizedOpcode (w : Word)
deriving DecidableEq, Repr

/-- `fault_code` (R102). -/
def FatalCondition.code : FatalCondition → BitVec 3
  | .outOfRangeAddress _ => 1
  | .stackUnderflow => 2
  | .stackOverflow => 3
  | .invalidDigit _ => 4
  | .invalidKey _ => 5
  | .unrecognizedOpcode _ => 6

/-- `fault_addr`: the offending address truncated to 16 bits for `OutOfRangeAddress`, else 0 (R102, R103). -/
def FatalCondition.addr : FatalCondition → Word
  | .outOfRangeAddress a => trunc16 a
  | .stackUnderflow | .stackOverflow | .invalidDigit _ | .invalidKey _ | .unrecognizedOpcode _ => 0

/-- Entry to a fatal condition (R103): `w` is the instruction word, `none` if the fetch did not read both its bytes. The
record is written, the mode becomes Halted, nothing else changes (R104). -/
def State.raiseFatal (s : State) (f : FatalCondition) (w : Option Word) : State :=
  { s with
    fault := { code := f.code, pc := s.pc, instr := w.getD 0, instrValid := w.isSome, addr := f.addr }
    mode := .halted }

/-- A meaning that raises: `i` is the instruction, so the fetched word is `encode i` (log 9). -/
def raiseIn (i : Instr) (f : FatalCondition) (s : State) : Outcome := .next (s.raiseFatal f (some (encode i)))

/-- `ResetEvent` (70_reset_and_hazards.md R118), the only way out of Halted (R106): there is no return from a fatal
condition. -/
def State.resetEvent (s : State) : State := State.afterReset s.cfg s.keys s.randDraws s.schedule

/-! ## Checked memory access (20_memory.md R34) -/

/-- `MemRead(a, 1)`. -/
def State.memRead (s : State) (a : Nat) : Except FatalCondition Byte :=
  if a ≥ memSize then .error (.outOfRangeAddress a) else .ok (s.byteAt a)

/-- The `n` bytes at `a .. a+n-1`, read in rising order; the first address out of range raises. -/
def State.memReads (s : State) (a : Nat) : Nat → Except FatalCondition (List Byte)
  | 0 => .ok []
  | n + 1 =>
    match s.memRead a with
    | .error f => .error f
    | .ok b =>
      match s.memReads (a + 1) n with
      | .error f => .error f
      | .ok bs => .ok (b :: bs)

/-- The least of `a .. a+n-1` that is out of range, if there is one (R105: "A multi-byte access reports the least
out-of-range address"). -/
def leastOutOfRange (a : Nat) : Nat → Option Nat
  | 0 => none
  | n + 1 => if a ≥ memSize then some a else leastOutOfRange (a + 1) n

/-- `MemWrite` of consecutive bytes, every address checked before any byte is written (R104). -/
def State.memWrites (s : State) (a : Nat) (bytes : List Byte) : Except FatalCondition State :=
  match leastOutOfRange a bytes.length with
  | some bad => .error (.outOfRangeAddress bad)
  | none => .ok (s.putBytes a bytes)

/-! ## Keys -/

/-- `keys[k]`. -/
def State.keyAt (s : State) (k : Fin 16) : Bool := s.keys[k]

/-- The least index of a pressed key (45_timers_input.md R99). -/
def State.leastPressed (s : State) : Option Nat := s.keys.toList.findIdx? id

/-! ## Framebuffer -/

/-- `fb[row][col]`; there is no pixel outside the grid, and none is lit there (log 11). -/
def Framebuffer.pixel (fb : Framebuffer) (row col : Nat) : Bool := (fb.getD row []).getD col false

/-- `fb[row][col] <- not fb[row][col]`. -/
def Framebuffer.toggle (fb : Framebuffer) (row col : Nat) : Framebuffer :=
  fb.modify row (fun line => line.modify col (fun p => !p))

/-- The framebuffer has the configured size (10_state.md R26). -/
abbrev Framebuffer.wf (c : Config) (fb : Framebuffer) : Prop :=
  fb.length = c.fbH ∧ ∀ line ∈ fb, line.length = c.fbW

/-- What a draw has done so far. -/
structure Drawing where
  /-- The framebuffer. -/
  fb : Framebuffer
  /-- Whether a lit pixel was erased. -/
  collision : Bool
deriving DecidableEq, Repr

/-- Bit `c` of a sprite row counted from the left: bit `7 - c` of the byte (40_display.md R60). PRESUMED (log 13). -/
def spriteBit (b : Byte) (c : Nat) : Bool := b.getLsbD (7 - c)

/-- Row `r`, column `c` of a sprite drawn at `(x0, y0)` (R61, with the wrap of R60). -/
def drawBit (cfg : Config) (x0 y0 r : Nat) (b : Byte) (d : Drawing) (c : Nat) : Drawing :=
  if spriteBit b c then
    { fb := d.fb.toggle ((y0 + r) % cfg.fbH) ((x0 + c) % cfg.fbW)
      collision := d.collision || d.fb.pixel ((y0 + r) % cfg.fbH) ((x0 + c) % cfg.fbW) }
  else d

/-- The columns 0 to 7 of sprite row `r`, in this order. -/
def drawRow (cfg : Config) (x0 y0 r : Nat) (b : Byte) (d : Drawing) : Drawing :=
  (List.range 8).foldl (drawBit cfg x0 y0 r b) d

/-- The sprite rows `r, r+1, …`, in this order. -/
def drawRows (cfg : Config) (x0 y0 : Nat) (r : Nat) (d : Drawing) : List Byte → Drawing
  | [] => d
  | b :: bs => drawRows cfg x0 y0 (r + 1) (drawRow cfg x0 y0 r b d) bs

end Sys2Proof.Machine
end

