-- ==== Sys2Proof/Machine/Operands.lean ====
section
/-! DEFINITION. Operand forms: immediates (30_encoding.md R49) and the one addressing mode, indirect through I with a small
offset (44_index_memory.md, head; 20_memory.md R35). -/

namespace Sys2Proof.Machine

/-- `zext_16(addr)` (R49). -/
def addrOperand (addr : Addr) : Word := addr.setWidth 16

/-- The effective address of byte `k`: `I + k`, an exact natural number (R35). -/
def State.effectiveAddr (s : State) (k : Nat) : Nat := s.iReg.toNat + k

/-- The target of Bnnn: `zext_16(addr) + V[0]`, which 16 bits always hold (41_control_flow.md R68). -/
def State.jumpV0Target (s : State) (addr : Addr) : Word := trunc16 (addr.toNat + (s.getV 0).toNat)

/-- `I <- trunc_16(I + k)` (10_state.md R21). -/
def State.addI (s : State) (k : Nat) : State := s.setI (trunc16 (s.iReg.toNat + k))

/-- The address of the glyph of a digit: `FONT_BASE + d * 5` (44_index_memory.md R92). -/
def glyphAddr (d : Byte) : Word := trunc16 (fontBase + d.toNat * 5)

/-- The decimal digits of a byte: hundreds, tens, ones (44_index_memory.md R93). -/
def bcdDigits (b : Byte) : List Byte :=
  [trunc8 (b.toNat / 100), trunc8 (b.toNat / 10 % 10), trunc8 (b.toNat % 10)]

end Sys2Proof.Machine
end

