-- ==== Sys2Proof/Machine/Flags.lean ====
section
/-! DEFINITION. The results and the flags of the datapath (43_alu.md R77): every operand an unsigned byte, every result
computed exactly and then truncated. -/

namespace Sys2Proof.Machine

/-- A flag as VF holds it: 1 or 0. -/
def flagByte (b : Bool) : Byte := if b then 1 else 0

/-- The stored sum, with 8-bit wraparound. -/
def addByte (a b : Byte) : Byte := trunc8 (a.toNat + b.toNat)

/-- The carry of 8xy4: the exact sum is above 255 (R84). -/
def carryFlag (a b : Byte) : Bool := decide (a.toNat + b.toNat > 255)

/-- The stored difference, with 8-bit wraparound. -/
def subByte (a b : Byte) : Byte := truncInt8 ((a.toNat : Int) - (b.toNat : Int))

/-- The not-borrow flag of `a - b`: strictly `a > b`, so 0 for equal operands (R77, R85, R87). -/
def notBorrowFlag (a b : Byte) : Bool := decide (a.toNat > b.toNat)

/-- `a >> 1` (R86). -/
def shiftRight1 (a : Byte) : Byte := trunc8 (a.toNat / 2)

/-- The bit 8xy6 shifts out: `a & 1` (R86). -/
def shiftedOutRight (a : Byte) : Bool := a.getLsbD 0

/-- `trunc_8(a << 1)` (R88). -/
def shiftLeft1 (a : Byte) : Byte := trunc8 (a.toNat * 2)

/-- The bit 8xyE shifts out: `a >> 7` (R88). -/
def shiftedOutLeft (a : Byte) : Bool := a.getLsbD 7

/-- `V[x]` first, VF last, the operands read before (10_state.md R17): with x = 0xF the flag remains. -/
def State.setVAndFlag (s : State) (x : RegIdx) (result : Byte) (flag : Bool) : State :=
  (s.setV x result).setV vf (flagByte flag)

end Sys2Proof.Machine
end

