-- ==== Sys2Proof/Machine/Alu.lean ====
section
/-! DEFINITION. Register, ALU and shift instructions (43_alu.md). -/

namespace Sys2Proof.Machine

/-- 6xkk (R78). -/
def execLdVxKk (x : RegIdx) (kk : Byte) (s : State) : Outcome := .next (s.setV x kk).advance

/-- 7xkk (R79). -/
def execAddVxKk (x : RegIdx) (kk : Byte) (s : State) : Outcome :=
  .next (s.setV x (addByte (s.getV x) kk)).advance

/-- 8xy0 (R80). -/
def execLdVxVy (x y : RegIdx) (s : State) : Outcome := .next (s.setV x (s.getV y)).advance

/-- 8xy1 (R81). -/
def execOrVxVy (x y : RegIdx) (s : State) : Outcome := .next (s.setV x (s.getV x ||| s.getV y)).advance

/-- 8xy2 (R82). -/
def execAndVxVy (x y : RegIdx) (s : State) : Outcome := .next (s.setV x (s.getV x &&& s.getV y)).advance

/-- 8xy3 (R83). -/
def execXorVxVy (x y : RegIdx) (s : State) : Outcome := .next (s.setV x (s.getV x ^^^ s.getV y)).advance

/-- 8xy4 (R84). -/
def execAddVxVy (x y : RegIdx) (s : State) : Outcome :=
  .next (s.setVAndFlag x (addByte (s.getV x) (s.getV y)) (carryFlag (s.getV x) (s.getV y))).advance

/-- 8xy5 (R85). -/
def execSub (x y : RegIdx) (s : State) : Outcome :=
  .next (s.setVAndFlag x (subByte (s.getV x) (s.getV y)) (notBorrowFlag (s.getV x) (s.getV y))).advance

/-- 8xy6 (R86): `y` is not read. -/
def execShr (x : RegIdx) (s : State) : Outcome :=
  .next (s.setVAndFlag x (shiftRight1 (s.getV x)) (shiftedOutRight (s.getV x))).advance

/-- 8xy7 (R87). -/
def execSubn (x y : RegIdx) (s : State) : Outcome :=
  .next (s.setVAndFlag x (subByte (s.getV y) (s.getV x)) (notBorrowFlag (s.getV y) (s.getV x))).advance

/-- 8xyE (R88): `y` is not read. -/
def execShl (x : RegIdx) (s : State) : Outcome :=
  .next (s.setVAndFlag x (shiftLeft1 (s.getV x)) (shiftedOutLeft (s.getV x))).advance

/-- `rand()` (10_state.md R29): the free value of this draw (log 4). -/
def State.randByte (s : State) : Byte := Config.freeRandByte s.randDraws

/-- Cxkk (R89): "each execution samples a new draw". -/
def execRnd (x : RegIdx) (kk : Byte) (s : State) : Outcome :=
  .next ({ s with randDraws := s.randDraws + 1 }.setV x (s.randByte &&& kk)).advance

end Sys2Proof.Machine
end

