-- ==== Sys2Proof/Machine/Control.lean ====
section
/-! DEFINITION. Control transfer (41_control_flow.md). -/

namespace Sys2Proof.Machine

/-- 00EE (R64). With `SP > 16` there is no entry to pop (log 8). -/
def execRet (s : State) : Outcome :=
  if s.sp.toNat = 0 then raiseIn .ret .stackUnderflow s
  else if h : s.sp.toNat - 1 < 16 then
    .next ({ s with sp := trunc8 (s.sp.toNat - 1) }.setPc s.stack[s.sp.toNat - 1])
  else .fault .stackPointerOutOfRange

/-- 0nnn (R65). -/
def execSys (addr : Addr) (s : State) : Outcome := .next (s.setPc (addrOperand addr))

/-- 1nnn (R66). -/
def execJp (addr : Addr) (s : State) : Outcome := .next (s.setPc (addrOperand addr))

/-- 2nnn (R67). With `SP > 16` there is no entry to push into (log 8). -/
def execCall (addr : Addr) (s : State) : Outcome :=
  if s.sp.toNat = stackDepth then raiseIn (.call addr) .stackOverflow s
  else if h : s.sp.toNat < 16 then
    .next ({ s with
      stack := s.stack.set s.sp.toNat (s.pcPlus 2)
      sp := trunc8 (s.sp.toNat + 1) }.setPc (addrOperand addr))
  else .fault .stackPointerOutOfRange

/-- Bnnn (R68). -/
def execJpV0 (addr : Addr) (s : State) : Outcome := .next (s.setPc (s.jumpV0Target addr))

end Sys2Proof.Machine
end

