-- ==== Sys2Proof/Machine/Display.lean ====
section
/-! DEFINITION. The display instructions (40_display.md). -/

namespace Sys2Proof.Machine

/-- 00E0 (R59). -/
def execCls (s : State) : Outcome :=
  .next { s with fb := blankFramebuffer s.cfg, frameReady := true }.advance

/-- The effect of Dxyn once its sprite bytes are read (R61). -/
def State.draw (s : State) (x y : RegIdx) (bytes : List Byte) : State :=
  let d := drawRows s.cfg (s.getV x).toNat (s.getV y).toNat 0 { fb := s.fb, collision := false } bytes
  ({ s with fb := d.fb, frameReady := true }.setV vf (flagByte d.collision)).advance

/-- Dxyn (R61). -/
def execDrw (x y : RegIdx) (n : Nibble) (s : State) : Outcome :=
  match s.memReads (s.effectiveAddr 0) n.toNat with
  | .error f => raiseIn (.drw x y n) f s
  | .ok bytes => .next (s.draw x y bytes)

end Sys2Proof.Machine
end

