-- ==== Sys2Proof/Machine/IndexMemory.lean ====
section
/-! DEFINITION. Address register and memory instructions (44_index_memory.md). -/

namespace Sys2Proof.Machine

/-- Annn (R90). -/
def execLdI (addr : Addr) (s : State) : Outcome := .next (s.setI (addrOperand addr)).advance

/-- Fx1E (R91). -/
def execAddIVx (x : RegIdx) (s : State) : Outcome := .next (s.addI (s.getV x).toNat).advance

/-- Fx29 (R92). -/
def execLdFVx (x : RegIdx) (s : State) : Outcome :=
  if (s.getV x).toNat > 0xF then raiseIn (.ldFVx x) (.invalidDigit (s.getV x)) s
  else .next (s.setI (glyphAddr (s.getV x))).advance

/-- Fx33 (R93): `I` is unchanged. -/
def execLdBVx (x : RegIdx) (s : State) : Outcome :=
  match s.memWrites (s.effectiveAddr 0) (bcdDigits (s.getV x)) with
  | .error f => raiseIn (.ldBVx x) f s
  | .ok t => .next t.advance

/-- Fx55 (R94). -/
def execLdMemVx (x : RegIdx) (s : State) : Outcome :=
  match s.memWrites (s.effectiveAddr 0) (s.lowRegs x) with
  | .error f => raiseIn (.ldMemVx x) f s
  | .ok t => .next (t.addI (x.toNat + 1)).advance

/-- Fx65 (R95). -/
def execLdVxMem (x : RegIdx) (s : State) : Outcome :=
  match s.memReads (s.effectiveAddr 0) (x.toNat + 1) with
  | .error f => raiseIn (.ldVxMem x) f s
  | .ok bytes => .next ((s.loadV 0 bytes).addI (x.toNat + 1)).advance

end Sys2Proof.Machine
end

