-- ==== Sys2Proof/Machine/Skips.lean ====
section
/-! DEFINITION. The conditional skips (42_skips.md). -/

namespace Sys2Proof.Machine

/-- 3xkk (R70). -/
def execSeVxKk (x : RegIdx) (kk : Byte) (s : State) : Outcome := .next (s.skipIf (s.getV x == kk))

/-- 4xkk (R71). -/
def execSneVxKk (x : RegIdx) (kk : Byte) (s : State) : Outcome := .next (s.skipIf (s.getV x != kk))

/-- 5xy0 (R72). -/
def execSeVxVy (x y : RegIdx) (s : State) : Outcome := .next (s.skipIf (s.getV x == s.getV y))

/-- 9xy0 (R73). -/
def execSneVxVy (x y : RegIdx) (s : State) : Outcome := .next (s.skipIf (s.getV x != s.getV y))

/-- Ex9E (R75), with the check of R74. -/
def execSkp (x : RegIdx) (s : State) : Outcome :=
  if h : (s.getV x).toNat < 16 then .next (s.skipIf (s.keyAt ⟨(s.getV x).toNat, h⟩))
  else raiseIn (.skp x) (.invalidKey (s.getV x)) s

/-- ExA1 (R76), with the check of R74. -/
def execSknp (x : RegIdx) (s : State) : Outcome :=
  if h : (s.getV x).toNat < 16 then .next (s.skipIf (!s.keyAt ⟨(s.getV x).toNat, h⟩))
  else raiseIn (.sknp x) (.invalidKey (s.getV x)) s

end Sys2Proof.Machine
end

