-- ==== Sys2Proof/Machine/TimersInput.lean ====
section
/-! DEFINITION. Timer and key-wait instructions (45_timers_input.md). -/

namespace Sys2Proof.Machine

/-- Fx07 (R97). -/
def execLdVxDt (x : RegIdx) (s : State) : Outcome := .next (s.setV x s.dt).advance

/-- Fx0A (R98): `V[x]` is written by the poll that resumes, not here. -/
def execLdVxK (x : RegIdx) (s : State) : Outcome :=
  .next { s with waitReg := x, mode := .awaitingKey }.advance

/-- Fx15 (R100). -/
def execLdDtVx (x : RegIdx) (s : State) : Outcome := .next { s with dt := s.getV x }.advance

/-- Fx18 (R101): the audio trigger follows at the end of the event (10_state.md R28). -/
def execLdStVx (x : RegIdx) (s : State) : Outcome := .next { s with st := s.getV x }.advance

/-- The key poll of an `InstrEvent` in mode AwaitingKey (R99). -/
def State.keyPoll (s : State) : State :=
  match s.leastPressed with
  | some k => { s with mode := .running }.setV s.waitReg (trunc8 k)
  | none => s

end Sys2Proof.Machine
end

