-- ==== Sys2Proof/Machine/Events.lean ====
section
/-! DEFINITION. The five events (10_state.md R14): what each does to the state, and which one a step delivers. -/

namespace Sys2Proof.Machine

/-! ## Around every event -/

/-- The output pulses of the event before are over (R30: `frame_ready` "holds no state between events"; log 5, 6). -/
def State.beginEvent (s : State) : State := { s with frameReady := false, loadTooLarge := false }

/-- `audio_on <- (ST != 0 and mode != Halted)` "at the end of every event" (10_state.md R28, C8, C10). -/
def State.endEvent (s : State) : State :=
  { s with audioOn := decide (s.st ≠ 0) && decide (s.mode ≠ .halted) }

/-- The end of an event whose body may stop. -/
def endOutcome : Outcome → Outcome
  | .next s => .next s.endEvent
  | .fault r => .fault r
  | .refused r => .refused r

/-! ## InstrEvent (30_encoding.md) -/

/-- The fetch (R54): PC is checked first, then PC + 1; the byte at PC is the high one (20_memory.md R39). -/
def State.fetch (s : State) : Except FatalCondition Word :=
  match s.memRead s.pc.toNat with
  | .error f => .error f
  | .ok hi =>
    match s.memRead (s.pc.toNat + 1) with
    | .error f => .error f
    | .ok lo => .ok (wordOfBytes hi lo)

/-- An unrecognized word (R52): fatal with STRICT_DECODE, else a no-op. -/
def State.unrecognized (s : State) (w : Word) : State :=
  if s.cfg.strictDecode then s.raiseFatal (.unrecognizedOpcode w) (some w) else s.advance

/-- Fetch, decode and execute, mode Running (R56). -/
def State.runInstr (s : State) : Outcome :=
  match s.fetch with
  | .error f => .next (s.raiseFatal f none)
  | .ok w =>
    match decodeWord w with
    | .error _ => .next (s.unrecognized w)
    | .ok i => exec i s

/-- The body of an `InstrEvent` (R56). -/
def State.instrBody (s : State) : Outcome :=
  match s.mode with
  | .halted => .next s
  | .awaitingKey => .next s.keyPoll
  | .running => s.runInstr

/-- `InstrEvent`. It closes the window for a load (70_reset_and_hazards.md R119). -/
def State.instrEvent (s : State) : Outcome :=
  endOutcome { s.beginEvent with loadWindow := false }.instrBody

/-! ## TimerEvent (60_exceptions.md R110) -/

/-- A timer after one decrement: it floors at zero. -/
def countDown (t : Byte) : Byte := if t ≠ 0 then trunc8 (t.toNat - 1) else t

/-- Both timers, unless Halted (R106). -/
def State.timerBody (s : State) : State :=
  match s.mode with
  | .halted => s
  | .running | .awaitingKey => { s with st := countDown s.st, dt := countDown s.dt }

/-! ## KeysEvent (60_exceptions.md R113) -/

/-- `keys[i]` is bit `i` of the snapshot. -/
def keysOfSnapshot (k : BitVec 16) : Vector Bool 16 :=
  #v[k.getLsbD 0, k.getLsbD 1, k.getLsbD 2, k.getLsbD 3, k.getLsbD 4, k.getLsbD 5, k.getLsbD 6, k.getLsbD 7,
     k.getLsbD 8, k.getLsbD 9, k.getLsbD 10, k.getLsbD 11, k.getLsbD 12, k.getLsbD 13, k.getLsbD 14, k.getLsbD 15]

/-- All keys at once. -/
def State.keysBody (s : State) (k : BitVec 16) : State := { s with keys := keysOfSnapshot k }

/-! ## LoadEvent (70_reset_and_hazards.md R119) -/

/-- The image goes to 0x200, if it fits; else the load fails and memory is unchanged. Outside its window the model refuses
the event. -/
def State.loadBody (s : State) (bytes : List Byte) : Outcome :=
  if s.loadWindow then
    if progBase + bytes.length > memSize then .next { s with loadTooLarge := true }
    else .next (s.putBytes progBase bytes)
  else .refused .loadOutsideWindow

/-! ## The next event -/

/-- One event, `s` being the state it finds. -/
def deliver (e : Event) (s : State) : Outcome :=
  match e with
  | .instr => s.instrEvent
  | .timer => .next s.beginEvent.timerBody.endEvent
  | .keys k => .next (s.beginEvent.keysBody k).endEvent
  | .reset => .next s.resetEvent.endEvent
  | .load bytes => endOutcome (s.beginEvent.loadBody bytes)

/-- The event the environment delivers next (log 1). -/
def State.nextEvent (s : State) : Event := s.schedule.headD .instr

/-- That event is delivered. -/
def State.nextStep (s : State) : Outcome := deliver s.nextEvent { s with schedule := s.schedule.tail }

/-- `w`'s two bytes at the program counter, mode Running and an `InstrEvent` next, so that the very next step runs it; PC is
moved to 0x200 where no word can be fetched at it (log 14). -/
def State.placeWord (s : State) (w : Word) : State :=
  let t := if s.pc.toNat + 1 < memSize then s else s.setPc (trunc16 progBase)
  { t.putBytes t.pc.toNat (bytesOfWord w) with mode := .running, schedule := [] }

end Sys2Proof.Machine
end

