-- ==== Sys2Proof/Machine/Step.lean ====
section
/-! DEFINITION. One step: the next event (10_state.md R14); and the host's way to have a given word run next. -/

namespace Sys2Proof.Machine

/-- One event of the block, an `InstrEvent` unless `schedule` says otherwise. -/
def step : State → Host.Outcome State Fault Refusal := State.nextStep

/-- `s` with the word `w` (its bits from `nbits` on being 0) where the next step fetches it (log 14). -/
def State.withFetchWord (s : State) (nbits w : Nat) : State := s.placeWord (trunc16 (w % 2 ^ nbits))

end Sys2Proof.Machine
end

