-- ==== Sys2Proof/Machine/Ports.lean ====
section
/-! DEFINITION. The output ports (10_state.md R31): read-only functions of the state, read between events.
`frame_ready` and `audio_on` are the fields `frameReady` and `audioOn`. -/

namespace Sys2Proof.Machine

/-- The port `status` (R31). -/
structure StatusPort where
  mode : Mode
  fault : FaultRecord
deriving DecidableEq, Repr

/-- What `status` shows. -/
def State.statusPort (s : State) : StatusPort := { mode := s.mode, fault := s.fault }

/-- The port `fb_out` (R31): a snapshot of the pixels. -/
def State.fbOut (s : State) : Framebuffer := s.fb

/-- The optional port `debug_out` (60_exceptions.md R115). -/
structure DebugPort where
  v : Vector Byte 16
  stack : Vector Word 16
  pc : Word
  dt : Byte
  st : Byte
  memory : List Byte
  iReg : Word
  sp : Byte
  mode : Mode
  waitReg : RegIdx
  fault : FaultRecord
deriving DecidableEq, Repr

/-- What `debug_out` shows; `memory` is the 4096 bytes in address order. -/
def State.debugPort (s : State) : DebugPort :=
  { v := s.v, stack := s.stack, pc := s.pc, dt := s.dt, st := s.st,
    memory := (List.range memSize).map s.byteAt,
    iReg := s.iReg, sp := s.sp, mode := s.mode, waitReg := s.waitReg, fault := s.fault }

end Sys2Proof.Machine
end

