-- ==== Sys2Proof/Safety.lean ====
section
/-! DEFINITION. What holds in every state a run reaches, and the terms statements use. -/

namespace Sys2Proof

/-- The 35 rows of spec/opcode_table.json, mask and match. -/
def tableRows : List (Word × Word) :=
  [(0xFFFF, 0x00E0), (0xFFFF, 0x00EE), (0xF000, 0x0000), (0xF000, 0x1000), (0xF000, 0x2000), (0xF000, 0x3000),
   (0xF000, 0x4000), (0xF00F, 0x5000), (0xF000, 0x6000), (0xF000, 0x7000)] ++
  [(0xF00F, 0x8000), (0xF00F, 0x8001), (0xF00F, 0x8002), (0xF00F, 0x8003), (0xF00F, 0x8004), (0xF00F, 0x8005),
   (0xF00F, 0x8006), (0xF00F, 0x8007), (0xF00F, 0x800E), (0xF00F, 0x9000)] ++
  [(0xF000, 0xA000), (0xF000, 0xB000), (0xF000, 0xC000), (0xF000, 0xD000), (0xF0FF, 0xE09E), (0xF0FF, 0xE0A1)] ++
  [(0xF0FF, 0xF007), (0xF0FF, 0xF00A), (0xF0FF, 0xF015), (0xF0FF, 0xF018), (0xF0FF, 0xF01E), (0xF0FF, 0xF029),
   (0xF0FF, 0xF033), (0xF0FF, 0xF055), (0xF0FF, 0xF065)]

end Sys2Proof

namespace Sys2Proof.Machine

/-- The fault record agrees with the mode (60_exceptions.md R103, R106): no fatal condition has occurred and every field is
0, unless the block is halted; then the code is one of R102's, a word that was not read is recorded as 0, and only
`OutOfRangeAddress` has an address. -/
structure FaultRecordOk (s : State) : Prop where
  /-- Not halted: all fields 0 (10_state.md R25). -/
  clear : s.mode ≠ .halted → s.fault = FaultRecord.none
  /-- Halted: a code of R102, neither 0 nor 7. -/
  coded : s.mode = .halted → s.fault.code ≠ 0 ∧ s.fault.code ≠ 7
  /-- `UnrecognizedOpcode` only with STRICT_DECODE (30_encoding.md R52). -/
  strict : s.fault.code = 6 → s.cfg.strictDecode = true
  /-- Only a fetch fault has no word, and then the word's field is 0 (30_encoding.md R54). -/
  word : s.mode = .halted → s.fault.instrValid = false → s.fault.instr = 0 ∧ s.fault.code = 1
  /-- `fault_addr` is 0 but for `OutOfRangeAddress` (R102). -/
  addr : s.fault.code ≠ 1 → s.fault.addr = 0
  /-- PC keeps the address of the instruction that raised it (R103). -/
  pc : s.mode = .halted → s.fault.pc = s.pc

/-- What every run keeps. -/
structure Inv (s : State) : Prop where
  /-- The configured grid has a pixel. -/
  cfg : s.cfg.Valid
  /-- Memory is in its canonical form. -/
  mem : Memory.wf s.cfg s.mem
  /-- `0 <= SP <= 16` (10_state.md R19). -/
  sp : s.sp.toNat ≤ stackDepth
  /-- The framebuffer has the configured size (10_state.md R26). -/
  fb : Framebuffer.wf s.cfg s.fb
  /-- The audio trigger follows ST and the mode (10_state.md R28). -/
  audio : s.audioOn = (decide (s.st ≠ 0) && decide (s.mode ≠ .halted))
  /-- The fault record agrees with the mode. -/
  fault : FaultRecordOk s
  /-- A load is admitted only while Running, before the first instruction (70_reset_and_hazards.md R119). -/
  window : s.loadWindow = true → s.mode = .running

/-- The state after the first `ResetEvent` of a block with the configuration `c`, before an environment that will deliver
`events` (10_state.md R14: the environment chooses the order). -/
def State.boot (c : Config) (events : List Event) : State :=
  State.afterReset c (Vector.replicate 16 false) 0 events

/-- A run from reset reaches `s`. -/
inductive Reachable (c : Config) (events : List Event) : State → Prop where
  | boot : Reachable c events (State.boot c events)
  | step {s t : State} : Reachable c events s → Machine.step s = .next t → Reachable c events t

/-- The next event is an `InstrEvent`. -/
abbrev State.InstrNext (s : State) : Prop := s.nextEvent = .instr

/-- The state in which the instruction of an `InstrEvent` runs: the event is taken, the pulses of the one before are over,
and the window for a load is closed. -/
def State.atInstr (s : State) : State :=
  { s with schedule := s.schedule.tail, frameReady := false, loadTooLarge := false, loadWindow := false }

/-- An instruction word can be fetched at PC (30_encoding.md R54). -/
abbrev State.CanFetch (s : State) : Prop := s.pc.toNat + 1 < memSize

/-- The word at PC, the byte at the lower address most significant (20_memory.md R39). -/
def State.wordAtPc (s : State) : Word := s.byteAt s.pc.toNat ++ s.byteAt (s.pc.toNat + 1)

/-- The pixels of an n-row sprite drawn at `(x0, y0)`: row `r`, column `c` of the sprite is a 1 bit and falls on the pixel
(40_display.md R60). -/
def SpriteCovers (cfg : Config) (bytes : List Byte) (x0 y0 row col : Nat) : Prop :=
  ∃ r c : Nat, r < bytes.length ∧ c < 8 ∧ (bytes.getD r 0).getLsbD (7 - c) = true ∧
    (y0 + r) % cfg.fbH = row ∧ (x0 + c) % cfg.fbW = col

end Sys2Proof.Machine
end

