-- ==== Sys2Proof/Certificates/Slice0/Obligations.lean ====
section
/-! DEFINITION. The statements for the provers. Each says in its docstring which rule of spec/ it formalises, and which of its
clauses rest on a decision of the spec (D<n> of 92_eei_decisions.md) or on a choice of the model (log <n>). A record
equality `exec i s = .next ⟨s with …⟩` states the frame too: every field it does not name is as before. -/

open Sys2Proof Sys2Proof.Machine

/-! ## Encoding -/

/-- R46, R47, R50: a decoder consumes two bytes and reads every operand at every value the encoding admits. -/
def Obligations.DecodeOfEncodeIsTheInstruction : Prop :=
  ∀ (i : Instr) (rest : List Byte), i.WellFormed → decode (bytesOfWord (encode i) ++ rest) = .ok (i, rest)

/-- R50, R51: what the decoder accepts is well formed, and no bit of the word is lost in it. So the word of a faulting
instruction is `encode` of it (log 9). -/
def Obligations.EncodeOfDecodedIsTheWord : Prop :=
  ∀ (w : Word) (i : Instr), decodeWord w = .ok i → encode i = w ∧ i.WellFormed

/-- R50: each of the 35 patterns is its instruction, with the two exact words before 0nnn; and a word is recognized exactly
when it matches a row of the table. -/
def Obligations.PatternsSelectTheInstruction : Prop :=
  (decodeWord 0x00E0#16 = .ok .cls ∧ decodeWord 0x00EE#16 = .ok .ret) ∧
  (∀ addr : Addr, addr ≠ 0x0E0#12 → addr ≠ 0x0EE#12 → decodeWord (0x0#4 ++ addr) = .ok (.sys addr)) ∧
  (∀ addr : Addr,
    decodeWord (0x1#4 ++ addr) = .ok (.jp addr) ∧ decodeWord (0x2#4 ++ addr) = .ok (.call addr) ∧
    decodeWord (0xA#4 ++ addr) = .ok (.ldI addr) ∧ decodeWord (0xB#4 ++ addr) = .ok (.jpV0 addr)) ∧
  (∀ (x : RegIdx) (kk : Byte),
    decodeWord (0x3#4 ++ x ++ kk) = .ok (.seVxKk x kk) ∧ decodeWord (0x4#4 ++ x ++ kk) = .ok (.sneVxKk x kk) ∧
    decodeWord (0x6#4 ++ x ++ kk) = .ok (.ldVxKk x kk) ∧ decodeWord (0x7#4 ++ x ++ kk) = .ok (.addVxKk x kk) ∧
    decodeWord (0xC#4 ++ x ++ kk) = .ok (.rnd x kk)) ∧
  (∀ x y : RegIdx,
    decodeWord (0x5#4 ++ x ++ y ++ 0x0#4) = .ok (.seVxVy x y) ∧
    decodeWord (0x8#4 ++ x ++ y ++ 0x0#4) = .ok (.ldVxVy x y) ∧
    decodeWord (0x8#4 ++ x ++ y ++ 0x1#4) = .ok (.orVxVy x y) ∧
    decodeWord (0x8#4 ++ x ++ y ++ 0x2#4) = .ok (.andVxVy x y) ∧
    decodeWord (0x8#4 ++ x ++ y ++ 0x3#4) = .ok (.xorVxVy x y) ∧
    decodeWord (0x8#4 ++ x ++ y ++ 0x4#4) = .ok (.addVxVy x y) ∧
    decodeWord (0x8#4 ++ x ++ y ++ 0x5#4) = .ok (.sub x y) ∧
    decodeWord (0x8#4 ++ x ++ y ++ 0x6#4) = .ok (.shr x y) ∧
    decodeWord (0x8#4 ++ x ++ y ++ 0x7#4) = .ok (.subn x y) ∧
    decodeWord (0x8#4 ++ x ++ y ++ 0xE#4) = .ok (.shl x y) ∧
    decodeWord (0x9#4 ++ x ++ y ++ 0x0#4) = .ok (.sneVxVy x y)) ∧
  (∀ (x y : RegIdx) (n : Nibble), decodeWord (0xD#4 ++ x ++ y ++ n) = .ok (.drw x y n)) ∧
  (∀ x : RegIdx,
    decodeWord (0xE#4 ++ x ++ 0x9E#8) = .ok (.skp x) ∧ decodeWord (0xE#4 ++ x ++ 0xA1#8) = .ok (.sknp x) ∧
    decodeWord (0xF#4 ++ x ++ 0x07#8) = .ok (.ldVxDt x) ∧ decodeWord (0xF#4 ++ x ++ 0x0A#8) = .ok (.ldVxK x) ∧
    decodeWord (0xF#4 ++ x ++ 0x15#8) = .ok (.ldDtVx x) ∧ decodeWord (0xF#4 ++ x ++ 0x18#8) = .ok (.ldStVx x) ∧
    decodeWord (0xF#4 ++ x ++ 0x1E#8) = .ok (.addIVx x) ∧ decodeWord (0xF#4 ++ x ++ 0x29#8) = .ok (.ldFVx x) ∧
    decodeWord (0xF#4 ++ x ++ 0x33#8) = .ok (.ldBVx x) ∧ decodeWord (0xF#4 ++ x ++ 0x55#8) = .ok (.ldMemVx x) ∧
    decodeWord (0xF#4 ++ x ++ 0x65#8) = .ok (.ldVxMem x)) ∧
  (∀ w : Word, (∃ i, decodeWord w = .ok i) ↔ ∃ row ∈ tableRows, w &&& row.1 = row.2)

/-- R51 but for its counts, which the spec marks as derived: the unrecognized words, family by family. -/
def Obligations.UnrecognizedWordsByFamily : Prop :=
  ∀ w : Word, decodeWord w = .error (.unrecognized w) ↔
    ((fieldOp w = 0x5#4 ∨ fieldOp w = 0x9#4) ∧ fieldN w ≠ 0x0#4) ∨
    (fieldOp w = 0x8#4 ∧ fieldN w ∈ [0x8#4, 0x9#4, 0xA#4, 0xB#4, 0xC#4, 0xD#4, 0xF#4]) ∨
    (fieldOp w = 0xE#4 ∧ fieldKk w ∉ [0x9E#8, 0xA1#8]) ∨
    (fieldOp w = 0xF#4 ∧
      fieldKk w ∉ [0x07#8, 0x0A#8, 0x15#8, 0x18#8, 0x1E#8, 0x29#8, 0x33#8, 0x55#8, 0x65#8])

/-- Words written out from the patterns of R50, one of each family nibble that has operands, and the spec's own example of
the fields of D7A3 (95_test_vectors.md V-E7). -/
def Obligations.WrittenOutWordsDecode : Prop :=
  decode [0x01, 0xE0] = .ok (.sys 0x1E0, []) ∧ decode [0x22, 0x10] = .ok (.call 0x210, []) ∧
  decode [0x33, 0x10] = .ok (.seVxKk 3 0x10, []) ∧ decode [0x80, 0x14] = .ok (.addVxVy 0 1, []) ∧
  decode [0xA3, 0x00] = .ok (.ldI 0x300, []) ∧ decode [0xD7, 0xA3] = .ok (.drw 7 0xA 3, []) ∧
  decode [0xE5, 0x9E] = .ok (.skp 5, []) ∧ decode [0xFC, 0x33] = .ok (.ldBVx 0xC, []) ∧
  decode [0x51, 0x21] = .error (.unrecognized 0x5121) ∧ decode [0x12] = .error .truncated

/-! ## One step -/

/-- R54, R55, R56: a step in mode Running whose event is an `InstrEvent` and whose bytes at PC decode to `i` is `exec i` in the
state with the event taken, and then the audio trigger of R28. The fields of `atInstr` are the model's (log 1, 5, 6, 7). -/
def Obligations.StepRunsTheDecodedInstruction : Prop :=
  ∀ (s : State) (i : Instr), s.InstrNext → s.mode = .running → s.CanFetch → decodeWord s.wordAtPc = .ok i →
    step s = match exec i s.atInstr with
      | .next t => .next { t with audioOn := decide (t.st ≠ 0) && decide (t.mode ≠ .halted) }
      | .fault r => .fault r
      | .refused r => .refused r

/-- R54 with R103 (decisions D10, D33): a fetch that cannot read both bytes halts, with the address of the byte it could not
read and no instruction word. The fields of `atInstr` are the model's (log 1, 5, 6, 7). -/
def Obligations.FetchPastTheTopHalts : Prop :=
  ∀ s : State, s.InstrNext → s.mode = .running → ¬ s.CanFetch →
    step s = .next { s.atInstr with
      mode := .halted
      audioOn := false
      fault := { code := 1, pc := s.pc, instr := 0, instrValid := false
                 addr := if s.pc.toNat ≥ 4096 then s.pc else 0x1000 } }

/-- R52 (decision D21): an unrecognized word only advances PC, or is fatal with STRICT_DECODE. The
fields of `atInstr` are the model's (log 1, 5, 6, 7). -/
def Obligations.UnrecognizedWordFollowsTheDecodePolicy : Prop :=
  ∀ s : State, s.InstrNext → s.mode = .running → s.CanFetch →
    decodeWord s.wordAtPc = .error (.unrecognized s.wordAtPc) →
    (s.cfg.strictDecode = false →
      step s = .next { s.atInstr with
        pc := BitVec.ofNat 16 (s.pc.toNat + 2), audioOn := decide (s.st ≠ 0) }) ∧
    (s.cfg.strictDecode = true →
      step s = .next { s.atInstr with
        mode := .halted
        audioOn := false
        fault := { code := 6, pc := s.pc, instr := s.wordAtPc, instrValid := true, addr := 0 } })

/-- R99 (decision D13): the poll stores the least pressed key and resumes, with nothing fetched; without a pressed key nothing
changes. The fields of `atInstr` are the model's (log 1, 5, 6, 7). -/
def Obligations.KeyPollStoresTheLeastPressedKey : Prop :=
  ∀ s : State, s.InstrNext → s.mode = .awaitingKey →
    (∀ k : Fin 16, s.keys[k] = true → (∀ j : Fin 16, j < k → s.keys[j] = false) →
      step s = .next { s.atInstr with
        v := s.v.set s.waitReg.toNat (BitVec.ofNat 8 k), mode := .running, audioOn := decide (s.st ≠ 0) }) ∧
    ((∀ k : Fin 16, s.keys[k] = false) →
      step s = .next { s.atInstr with audioOn := decide (s.st ≠ 0) })

/-- R106 (decision D32): a halted block ignores `InstrEvent` and `TimerEvent`; audio is off (C10). The event fields are
the model's (log 1, 5, 6, 7). -/
def Obligations.HaltedBlockIgnoresTicks : Prop :=
  ∀ s : State, s.mode = .halted →
    (s.nextEvent = .instr → step s = .next { s.atInstr with audioOn := false }) ∧
    (s.nextEvent = .timer → step s = .next { s with
      schedule := s.schedule.tail, frameReady := false, loadTooLarge := false, audioOn := false })

/-- R110 (its audio clause by decision D15): both timers count down, flooring at zero, in the modes Running and AwaitingKey.
The event fields are the model's (log 1, 5, 6). -/
def Obligations.TimerEventCountsBothTimersDown : Prop :=
  ∀ s : State, s.nextEvent = .timer → s.mode ≠ .halted →
    ∃ t, step s = .next t ∧
      t = { s with
        schedule := s.schedule.tail, frameReady := false, loadTooLarge := false
        st := t.st, dt := t.dt, audioOn := t.audioOn } ∧
      t.st.toNat = s.st.toNat - 1 ∧ t.dt.toNat = s.dt.toNat - 1 ∧ (t.audioOn = true ↔ t.st ≠ 0)

/-- R113 (decision D27): the key array becomes the snapshot, in every mode, and nothing else of the spec's state changes but the
audio trigger, which follows R28. The event fields are the model's (log 1, 5, 6). -/
def Obligations.KeysEventReplacesTheKeys : Prop :=
  ∀ (s : State) (k : BitVec 16), s.nextEvent = .keys k →
    ∃ t, step s = .next t ∧
      t = { s with
        schedule := s.schedule.tail, frameReady := false, loadTooLarge := false
        keys := t.keys, audioOn := decide (s.st ≠ 0) && decide (s.mode ≠ .halted) } ∧
      ∀ j : Fin 16, t.keys[j] = k.getLsbD j

/-- R118 (decisions D18, D27, D32): a `ResetEvent`, from any state, halted or not; the keys are kept. The model's choice, not
R118's: `frameReady` is false (log 5, unsafe there) and so is `loadTooLarge` (log 6), the configuration, the count of draws and the
schedule are kept (log 2, 4, 1), and `loadWindow` is true (log 7). -/
def Obligations.ResetEventPutsTheInitialValues : Prop :=
  ∀ s : State, s.nextEvent = .reset →
    ∃ t, step s = .next t ∧
      (∀ j : RegIdx, t.getV j = 0) ∧ (∀ j : Fin 16, t.stack[j] = 0) ∧
      t.pc = 0x200 ∧ t.iReg = 0 ∧ t.sp = 0 ∧ t.dt = 0 ∧ t.st = 0 ∧ t.mode = .running ∧ t.waitReg = 0 ∧
      t.fault = { code := 0, pc := 0, instr := 0, instrValid := false, addr := 0 } ∧
      (∀ row col : Nat, t.fb.pixel row col = false) ∧ Framebuffer.wf t.cfg t.fb ∧
      t.audioOn = false ∧ t.frameReady = false ∧
      (∀ a : Fin 80, t.byteAt a = s.cfg.font[a]) ∧ (∀ a : Nat, 80 ≤ a → t.byteAt a = 0) ∧
      t.keys = s.keys ∧ t.cfg = s.cfg ∧
      t.randDraws = s.randDraws ∧ t.schedule = s.schedule.tail ∧ t.loadWindow = true ∧ t.loadTooLarge = false

/-- R119 (decisions D23, D28): an image that fits goes to 0x200, one that does not leaves memory as it was; a load after the first
`InstrEvent` is refused. `loadWindow`, `loadTooLarge` and the other event fields are the model's (log 1, 5, 6, 7), and so is that a second load is
admitted (log 7). -/
def Obligations.LoadEventPlacesTheImage : Prop :=
  ∀ (s : State) (bytes : List Byte), s.nextEvent = .load bytes →
    (s.loadWindow = true → 0x200 + bytes.length ≤ 4096 → Memory.wf s.cfg s.mem →
      ∃ t, step s = .next t ∧
        t = { s with
          schedule := s.schedule.tail, frameReady := false, loadTooLarge := false
          mem := t.mem, audioOn := decide (s.st ≠ 0) && decide (s.mode ≠ .halted) } ∧
        (∀ (k : Nat) (h : k < bytes.length), t.byteAt (0x200 + k) = bytes[k]) ∧
        (∀ a : Nat, a < 0x200 ∨ 0x200 + bytes.length ≤ a → t.byteAt a = s.byteAt a)) ∧
    (s.loadWindow = true → 0x200 + bytes.length > 4096 →
      step s = .next { s with
        schedule := s.schedule.tail, frameReady := false, loadTooLarge := true
        audioOn := decide (s.st ≠ 0) && decide (s.mode ≠ .halted) }) ∧
    (s.loadWindow = false → step s = .refused .loadOutsideWindow)

/-! ## Memory and registers -/

/-- R34: the access primitives. R42 (derived): a write is seen by the next read of its cell, and changes no other. That a write keeps
the memory's canonical form, the premise here, is the model's choice of a form (log 10). -/
def Obligations.MemoryAccessIsCheckedAgainst4096 : Prop :=
  ∀ (s : State) (a : Nat) (v : Byte), Memory.wf s.cfg s.mem →
    (4096 ≤ a → s.memRead a = .error (.outOfRangeAddress a) ∧ s.memWrites a [v] = .error (.outOfRangeAddress a)) ∧
    (a < 4096 → s.memRead a = .ok (s.byteAt a) ∧
      ∃ t, s.memWrites a [v] = .ok t ∧ t = { s with mem := t.mem } ∧ Memory.wf t.cfg t.mem ∧
        t.memRead a = .ok v ∧ ∀ j : Nat, j ≠ a → t.byteAt j = s.byteAt j)

/-- The memory's form is canonical (log 10): two memories that read the same everywhere are equal. -/
def Obligations.MemoriesThatReadAlikeAreEqual : Prop :=
  ∀ (s t : State), s.cfg = t.cfg → Memory.wf s.cfg s.mem → Memory.wf t.cfg t.mem →
    (∀ a : Nat, a < 4096 → s.byteAt a = t.byteAt a) → s.mem = t.mem

/-! ## Display -/

/-- R59 (`frame_ready` by decision D16). -/
def Obligations.ClsClearsEveryPixel : Prop :=
  ∀ s : State, decodeWord 0x00E0#16 = .ok .cls ∧
    ∃ t, exec .cls s = .next t ∧
      t = { s with fb := t.fb, pc := BitVec.ofNat 16 (s.pc.toNat + 2), frameReady := true } ∧
      Framebuffer.wf s.cfg t.fb ∧ ∀ row col : Nat, t.fb.pixel row col = false

/-- R60, R61 (decisions D5, D14, D16): the sprite is XORed onto the grid with both coordinates wrapped, and VF tells whether a lit
pixel was erased. The bit order is from general knowledge (log 13). The pixel clauses are for grids on which no draw touches a
pixel twice, this hardware's among them; the rest is for every grid. -/
def Obligations.DrwXorsTheSpriteAndReportsCollision : Prop :=
  ∀ (x y : RegIdx) (n : Nibble) (s : State), Framebuffer.wf s.cfg s.fb →
    n = 0 ∨ s.iReg.toNat + n.toNat ≤ 4096 →
    let bytes := (List.range n.toNat).map fun r => s.byteAt (s.iReg.toNat + r)
    let covers := SpriteCovers s.cfg bytes (s.getV x).toNat (s.getV y).toNat
    ∃ (fb : Framebuffer) (collision : Bool),
      exec (.drw x y n) s = .next { s with
        fb := fb, v := s.v.set 0xF (if collision then 1 else 0)
        pc := BitVec.ofNat 16 (s.pc.toNat + 2), frameReady := true } ∧
      Framebuffer.wf s.cfg fb ∧
      (8 ≤ s.cfg.fbW → 15 ≤ s.cfg.fbH →
        (∀ row col : Nat, fb.pixel row col = true ↔ ¬ (s.fb.pixel row col = true ↔ covers row col)) ∧
        (collision = true ↔ ∃ row col : Nat, covers row col ∧ s.fb.pixel row col = true))

/-- R61 with R103, R105 (decision D7): a sprite that runs past the top of memory halts with the least address out of range, and
nothing is drawn. -/
def Obligations.DrwPastTheTopHalts : Prop :=
  ∀ (x y : RegIdx) (n : Nibble) (s : State), n ≠ 0 → s.iReg.toNat + n.toNat > 4096 →
    exec (.drw x y n) s = .next { s with
      mode := .halted
      fault := { code := 1, pc := s.pc, instr := 0xD#4 ++ x ++ y ++ n, instrValid := true
                 addr := if s.iReg.toNat ≥ 4096 then s.iReg else 0x1000 } }

/-- R62, which the spec marks as derived: drawing the same sprite twice at the same coordinates restores the grid, and the second
draw reports a collision exactly when a 1 bit falls on a pixel that was unlit at first. Which pixels these are rests on the bit order
from general knowledge (decision D14, log 13). -/
def Obligations.DrawingTwiceRestoresTheGrid : Prop :=
  ∀ (x y : RegIdx) (n : Nibble) (s : State), Framebuffer.wf s.cfg s.fb → 8 ≤ s.cfg.fbW → 15 ≤ s.cfg.fbH →
    n = 0 ∨ s.iReg.toNat + n.toNat ≤ 4096 →
    let bytes := (List.range n.toNat).map fun r => s.byteAt (s.iReg.toNat + r)
    let covers := SpriteCovers s.cfg bytes (s.getV x).toNat (s.getV y).toNat
    ∃ t, exec (.drw x y n) s = .next t ∧
      (t.getV x = s.getV x → t.getV y = s.getV y →
        ∃ u, exec (.drw x y n) t = .next u ∧ u.fb = s.fb ∧
          (u.getV 0xF = 1 ↔ ∃ row col : Nat, covers row col ∧ s.fb.pixel row col = false))

/-! ## Control transfer -/

/-- R65, R66: 0nnn and 1nnn write PC only. -/
def Obligations.SysAndJpJumpToTheAddress : Prop :=
  ∀ (addr : Addr) (s : State),
    (addr ≠ 0x0E0#12 → addr ≠ 0x0EE#12 →
      decodeWord (0x0#4 ++ addr) = .ok (.sys addr) ∧ exec (.sys addr) s = .next { s with pc := 0x0#4 ++ addr }) ∧
    decodeWord (0x1#4 ++ addr) = .ok (.jp addr) ∧ exec (.jp addr) s = .next { s with pc := 0x0#4 ++ addr }

/-- R67, R20 (decisions D6, D7): a call pushes the address after it; the 17th nested one halts and changes nothing. -/
def Obligations.CallPushesTheReturnAddress : Prop :=
  ∀ (addr : Addr) (s : State),
    decodeWord (0x2#4 ++ addr) = .ok (.call addr) ∧
    (∀ h : s.sp.toNat < 16,
      exec (.call addr) s = .next { s with
        stack := s.stack.set s.sp.toNat (BitVec.ofNat 16 (s.pc.toNat + 2))
        sp := BitVec.ofNat 8 (s.sp.toNat + 1)
        pc := 0x0#4 ++ addr }) ∧
    (s.sp = 16 → exec (.call addr) s = .next { s with
      mode := .halted
      fault := { code := 3, pc := s.pc, instr := 0x2#4 ++ addr, instrValid := true, addr := 0 } })

/-- R64, R20 (decisions D6, D34): a return pops into PC and clears nothing; with an empty stack it halts. -/
def Obligations.RetPopsTheReturnAddress : Prop :=
  ∀ s : State,
    decodeWord 0x00EE#16 = .ok .ret ∧
    (∀ k : Fin 16, s.sp.toNat = k.val + 1 →
      exec .ret s = .next { s with sp := BitVec.ofNat 8 k, pc := s.stack[k] }) ∧
    (s.sp = 0 → exec .ret s = .next { s with
      mode := .halted
      fault := { code := 2, pc := s.pc, instr := 0x00EE, instrValid := true, addr := 0 } })

/-- The model's choice (log 8): in a state R19 says no run reaches, CALL and RET stop by name. -/
def Obligations.CallAndRetStopWithSpPastTheStack : Prop :=
  ∀ (addr : Addr) (s : State), s.sp.toNat > 16 →
    exec (.call addr) s = .fault .stackPointerOutOfRange ∧ exec .ret s = .fault .stackPointerOutOfRange

/-- R68 (decision D37): the sum is not masked. -/
def Obligations.JpV0AddsV0ToTheAddress : Prop :=
  ∀ (addr : Addr) (s : State), decodeWord (0xB#4 ++ addr) = .ok (.jpV0 addr) ∧
    ∃ t, exec (.jpV0 addr) s = .next t ∧ t = { s with pc := t.pc } ∧ t.pc.toNat = addr.toNat + (s.getV 0).toNat

/-! ## Skips -/

/-- R70, R71: the skips on an immediate. -/
def Obligations.SkipsOnImmediate : Prop :=
  ∀ (x : RegIdx) (kk : Byte) (s : State),
    (decodeWord (0x3#4 ++ x ++ kk) = .ok (.seVxKk x kk) ∧ decodeWord (0x4#4 ++ x ++ kk) = .ok (.sneVxKk x kk)) ∧
    exec (.seVxKk x kk) s = .next { s with pc := BitVec.ofNat 16 (s.pc.toNat + if s.getV x = kk then 4 else 2) } ∧
    exec (.sneVxKk x kk) s = .next { s with pc := BitVec.ofNat 16 (s.pc.toNat + if s.getV x ≠ kk then 4 else 2) }

/-- R72, R73: the skips on two registers. -/
def Obligations.SkipsOnRegisters : Prop :=
  ∀ (x y : RegIdx) (s : State),
    (∀ n : Nibble, decodeWord (0x5#4 ++ x ++ y ++ n) =
      if n = 0 then .ok (.seVxVy x y) else .error (.unrecognized (0x5#4 ++ x ++ y ++ n))) ∧
    (∀ n : Nibble, decodeWord (0x9#4 ++ x ++ y ++ n) =
      if n = 0 then .ok (.sneVxVy x y) else .error (.unrecognized (0x9#4 ++ x ++ y ++ n))) ∧
    exec (.seVxVy x y) s =
      .next { s with pc := BitVec.ofNat 16 (s.pc.toNat + if s.getV x = s.getV y then 4 else 2) } ∧
    exec (.sneVxVy x y) s =
      .next { s with pc := BitVec.ofNat 16 (s.pc.toNat + if s.getV x ≠ s.getV y then 4 else 2) }

/-- R74, R75, R76 (decisions D11, D27): the skips on a key; a key number above 0xF halts. -/
def Obligations.SkipsOnKey : Prop :=
  ∀ (x : RegIdx) (s : State),
    (decodeWord (0xE#4 ++ x ++ 0x9E#8) = .ok (.skp x) ∧ decodeWord (0xE#4 ++ x ++ 0xA1#8) = .ok (.sknp x)) ∧
    (∀ k : Fin 16, (s.getV x).toNat = k.val →
      exec (.skp x) s =
        .next { s with pc := BitVec.ofNat 16 (s.pc.toNat + if s.keys[k] = true then 4 else 2) } ∧
      exec (.sknp x) s =
        .next { s with pc := BitVec.ofNat 16 (s.pc.toNat + if s.keys[k] = false then 4 else 2) }) ∧
    ((s.getV x).toNat > 0xF →
      exec (.skp x) s = .next { s with
        mode := .halted
        fault := { code := 5, pc := s.pc, instr := 0xE#4 ++ x ++ 0x9E#8, instrValid := true, addr := 0 } } ∧
      exec (.sknp x) s = .next { s with
        mode := .halted
        fault := { code := 5, pc := s.pc, instr := 0xE#4 ++ x ++ 0xA1#8, instrValid := true, addr := 0 } })

/-! ## Registers and ALU -/

/-- R78, R79, R80: the loads of a register and the add without a flag; VF changes only as the destination. -/
def Obligations.RegisterLoadsAndAddImmediate : Prop :=
  ∀ (x y : RegIdx) (kk : Byte) (s : State),
    (decodeWord (0x6#4 ++ x ++ kk) = .ok (.ldVxKk x kk) ∧ decodeWord (0x7#4 ++ x ++ kk) = .ok (.addVxKk x kk) ∧
      decodeWord (0x8#4 ++ x ++ y ++ 0x0#4) = .ok (.ldVxVy x y)) ∧
    exec (.ldVxKk x kk) s =
      .next { s with v := s.v.set x.toNat kk, pc := BitVec.ofNat 16 (s.pc.toNat + 2) } ∧
    exec (.addVxKk x kk) s = .next { s with
      v := s.v.set x.toNat (BitVec.ofNat 8 ((s.getV x).toNat + kk.toNat))
      pc := BitVec.ofNat 16 (s.pc.toNat + 2) } ∧
    exec (.ldVxVy x y) s =
      .next { s with v := s.v.set x.toNat (s.getV y), pc := BitVec.ofNat 16 (s.pc.toNat + 2) }

/-- R81, R82, R83 (VF unchanged by decision D4). -/
def Obligations.BitwiseOpsLeaveVfAlone : Prop :=
  ∀ (x y : RegIdx) (s : State),
    (decodeWord (0x8#4 ++ x ++ y ++ 0x1#4) = .ok (.orVxVy x y) ∧
      decodeWord (0x8#4 ++ x ++ y ++ 0x2#4) = .ok (.andVxVy x y) ∧
      decodeWord (0x8#4 ++ x ++ y ++ 0x3#4) = .ok (.xorVxVy x y)) ∧
    exec (.orVxVy x y) s =
      .next { s with v := s.v.set x.toNat (s.getV x ||| s.getV y), pc := BitVec.ofNat 16 (s.pc.toNat + 2) } ∧
    exec (.andVxVy x y) s =
      .next { s with v := s.v.set x.toNat (s.getV x &&& s.getV y), pc := BitVec.ofNat 16 (s.pc.toNat + 2) } ∧
    exec (.xorVxVy x y) s =
      .next { s with v := s.v.set x.toNat (s.getV x ^^^ s.getV y), pc := BitVec.ofNat 16 (s.pc.toNat + 2) }

/-- R84, R77 (the order V[x] then VF, seen with x = 0xF, by decision D5). -/
def Obligations.AddRegistersSetsCarry : Prop :=
  ∀ (x y : RegIdx) (s : State),
    decodeWord (0x8#4 ++ x ++ y ++ 0x4#4) = .ok (.addVxVy x y) ∧
    ∃ t, exec (.addVxVy x y) s = .next t ∧
      t = { s with v := t.v, pc := BitVec.ofNat 16 (s.pc.toNat + 2) } ∧
      (x ≠ 0xF → (t.getV x).toNat = ((s.getV x).toNat + (s.getV y).toNat) % 256) ∧
      t.getV 0xF = (if (s.getV x).toNat + (s.getV y).toNat > 255 then 1 else 0) ∧
      ∀ j : RegIdx, j ≠ x → j ≠ 0xF → t.getV j = s.getV j

/-- R85, R87, R77 (the order V[x] then VF by decision D5): the differences wrap and the flag is a strict unsigned comparison of the
values before the instruction. -/
def Obligations.SubtractionsSetNotBorrow : Prop :=
  ∀ (x y : RegIdx) (s : State),
    (decodeWord (0x8#4 ++ x ++ y ++ 0x5#4) = .ok (.sub x y) ∧
      decodeWord (0x8#4 ++ x ++ y ++ 0x7#4) = .ok (.subn x y)) ∧
    (∃ t, exec (.sub x y) s = .next t ∧
      t = { s with v := t.v, pc := BitVec.ofNat 16 (s.pc.toNat + 2) } ∧
      (x ≠ 0xF → ((t.getV x).toNat : Int) = ((s.getV x).toNat - (s.getV y).toNat : Int) % 256) ∧
      t.getV 0xF = (if (s.getV x).toNat > (s.getV y).toNat then 1 else 0) ∧
      ∀ j : RegIdx, j ≠ x → j ≠ 0xF → t.getV j = s.getV j) ∧
    (∃ t, exec (.subn x y) s = .next t ∧
      t = { s with v := t.v, pc := BitVec.ofNat 16 (s.pc.toNat + 2) } ∧
      (x ≠ 0xF → ((t.getV x).toNat : Int) = ((s.getV y).toNat - (s.getV x).toNat : Int) % 256) ∧
      t.getV 0xF = (if (s.getV y).toNat > (s.getV x).toNat then 1 else 0) ∧
      ∀ j : RegIdx, j ≠ x → j ≠ 0xF → t.getV j = s.getV j)

/-- R86, R88 (the order V[x] then VF by decision D5): the shifts are of V[x] in place, whatever y holds, and VF is the bit shifted
out. -/
def Obligations.ShiftsPutTheLostBitInVf : Prop :=
  ∀ (x y : RegIdx) (s : State),
    (decodeWord (0x8#4 ++ x ++ y ++ 0x6#4) = .ok (.shr x y) ∧
      decodeWord (0x8#4 ++ x ++ y ++ 0xE#4) = .ok (.shl x y)) ∧
    exec (.shr x y) s = .next { s with
      v := (s.v.set x.toNat (s.getV x >>> 1)).set 0xF (s.getV x &&& 1)
      pc := BitVec.ofNat 16 (s.pc.toNat + 2) } ∧
    exec (.shl x y) s = .next { s with
      v := (s.v.set x.toNat (s.getV x <<< 1)).set 0xF (s.getV x >>> 7)
      pc := BitVec.ofNat 16 (s.pc.toNat + 2) }

/-- R89 (decision D17): the draw is a free value, and the next execution samples another (`randDraws` is the model's, log 4). The
last clause holds whatever the draw is. -/
def Obligations.RndMasksAFreshDraw : Prop :=
  ∀ (x : RegIdx) (kk : Byte) (s : State),
    decodeWord (0xC#4 ++ x ++ kk) = .ok (.rnd x kk) ∧
    ∃ t, exec (.rnd x kk) s = .next t ∧
      t = { s with
        v := s.v.set x.toNat (Config.freeRandByte s.randDraws &&& kk)
        pc := BitVec.ofNat 16 (s.pc.toNat + 2)
        randDraws := s.randDraws + 1 } ∧
      t.getV x &&& ~~~kk = 0

/-! ## Address register and memory -/

/-- R90. -/
def Obligations.LdILoadsTheAddress : Prop :=
  ∀ (addr : Addr) (s : State), decodeWord (0xA#4 ++ addr) = .ok (.ldI addr) ∧
    exec (.ldI addr) s = .next { s with iReg := 0x0#4 ++ addr, pc := BitVec.ofNat 16 (s.pc.toNat + 2) }

/-- R91 (the 16-bit wrap by decision D30): no flag, no fault. -/
def Obligations.AddIWrapsAt16Bits : Prop :=
  ∀ (x : RegIdx) (s : State), decodeWord (0xF#4 ++ x ++ 0x1E#8) = .ok (.addIVx x) ∧
    exec (.addIVx x) s = .next { s with
      iReg := BitVec.ofNat 16 (s.iReg.toNat + (s.getV x).toNat), pc := BitVec.ofNat 16 (s.pc.toNat + 2) }

/-- R92 (the fault code 4 by decision D8). -/
def Obligations.LdFPointsAtTheGlyph : Prop :=
  ∀ (x : RegIdx) (s : State), decodeWord (0xF#4 ++ x ++ 0x29#8) = .ok (.ldFVx x) ∧
    ((s.getV x).toNat ≤ 0xF → exec (.ldFVx x) s = .next { s with
      iReg := BitVec.ofNat 16 ((s.getV x).toNat * 5), pc := BitVec.ofNat 16 (s.pc.toNat + 2) }) ∧
    ((s.getV x).toNat > 0xF → exec (.ldFVx x) s = .next { s with
      mode := .halted
      fault := { code := 4, pc := s.pc, instr := 0xF#4 ++ x ++ 0x29#8, instrValid := true, addr := 0 } })

/-- R93 (decisions D7, D9): the three decimal digits go to I, I+1, I+2, or, if one of these does not exist, nothing does. -/
def Obligations.LdBStoresTheDecimalDigits : Prop :=
  ∀ (x : RegIdx) (s : State), decodeWord (0xF#4 ++ x ++ 0x33#8) = .ok (.ldBVx x) ∧
    (s.iReg.toNat + 2 < 4096 → Memory.wf s.cfg s.mem →
      ∃ t, exec (.ldBVx x) s = .next t ∧
        t = { s with mem := t.mem, pc := BitVec.ofNat 16 (s.pc.toNat + 2) } ∧
        (t.byteAt s.iReg.toNat).toNat = (s.getV x).toNat / 100 ∧
        (t.byteAt (s.iReg.toNat + 1)).toNat = (s.getV x).toNat / 10 % 10 ∧
        (t.byteAt (s.iReg.toNat + 2)).toNat = (s.getV x).toNat % 10 ∧
        ∀ a : Nat, a < s.iReg.toNat ∨ s.iReg.toNat + 2 < a → t.byteAt a = s.byteAt a) ∧
    (s.iReg.toNat + 2 ≥ 4096 → exec (.ldBVx x) s = .next { s with
      mode := .halted
      fault := { code := 1, pc := s.pc, instr := 0xF#4 ++ x ++ 0x33#8, instrValid := true
                 addr := if s.iReg.toNat ≥ 4096 then s.iReg else 0x1000 } })

/-- R94 (decisions D7, D9, D30): V0..Vx go to I.. and I advances past them, or, if one of the addresses does not exist, nothing
changes. -/
def Obligations.StoreRegistersAndAdvanceI : Prop :=
  ∀ (x : RegIdx) (s : State), decodeWord (0xF#4 ++ x ++ 0x55#8) = .ok (.ldMemVx x) ∧
    (s.iReg.toNat + x.toNat < 4096 → Memory.wf s.cfg s.mem →
      ∃ t, exec (.ldMemVx x) s = .next t ∧
        t = { s with
          mem := t.mem
          iReg := BitVec.ofNat 16 (s.iReg.toNat + x.toNat + 1)
          pc := BitVec.ofNat 16 (s.pc.toNat + 2) } ∧
        (∀ j : RegIdx, j ≤ x → t.byteAt (s.iReg.toNat + j.toNat) = s.getV j) ∧
        ∀ a : Nat, a < s.iReg.toNat ∨ s.iReg.toNat + x.toNat < a → t.byteAt a = s.byteAt a) ∧
    (s.iReg.toNat + x.toNat ≥ 4096 → exec (.ldMemVx x) s = .next { s with
      mode := .halted
      fault := { code := 1, pc := s.pc, instr := 0xF#4 ++ x ++ 0x55#8, instrValid := true
                 addr := if s.iReg.toNat ≥ 4096 then s.iReg else 0x1000 } })

/-- R95 (decisions D7, D9, D30): V0..Vx come from I.. and I advances past them, or, if one of the addresses does not exist,
nothing changes. -/
def Obligations.LoadRegistersAndAdvanceI : Prop :=
  ∀ (x : RegIdx) (s : State), decodeWord (0xF#4 ++ x ++ 0x65#8) = .ok (.ldVxMem x) ∧
    (s.iReg.toNat + x.toNat < 4096 →
      ∃ t, exec (.ldVxMem x) s = .next t ∧
        t = { s with
          v := t.v
          iReg := BitVec.ofNat 16 (s.iReg.toNat + x.toNat + 1)
          pc := BitVec.ofNat 16 (s.pc.toNat + 2) } ∧
        ∀ j : RegIdx, t.getV j = if j ≤ x then s.byteAt (s.iReg.toNat + j.toNat) else s.getV j) ∧
    (s.iReg.toNat + x.toNat ≥ 4096 → exec (.ldVxMem x) s = .next { s with
      mode := .halted
      fault := { code := 1, pc := s.pc, instr := 0xF#4 ++ x ++ 0x65#8, instrValid := true
                 addr := if s.iReg.toNat ≥ 4096 then s.iReg else 0x1000 } })

/-- R96, which the spec marks as derived: Fx55 at `a`, then Annn with `a`, then Fx65 gives the registers back, whatever ran in
between without writing the bytes `a .. a+x`; both advance I by x + 1. -/
def Obligations.StoreThenLoadGivesTheRegistersBack : Prop :=
  ∀ (x : RegIdx) (addr : Addr) (s : State),
    s.iReg.toNat = addr.toNat → addr.toNat + x.toNat < 4096 → Memory.wf s.cfg s.mem →
    ∃ t, exec (.ldMemVx x) s = .next t ∧ t.iReg.toNat = addr.toNat + x.toNat + 1 ∧
      ∀ u : State, (∀ k : Nat, k ≤ x.toNat → u.byteAt (addr.toNat + k) = t.byteAt (addr.toNat + k)) →
        ∃ u₁ u₂, exec (.ldI addr) u = .next u₁ ∧ exec (.ldVxMem x) u₁ = .next u₂ ∧
          u₂.iReg.toNat = addr.toNat + x.toNat + 1 ∧ ∀ j : RegIdx, j ≤ x → u₂.getV j = s.getV j

/-- R38: the glyph cells are ordinary memory. -/
def Obligations.GlyphCellsCanBeWritten : Prop :=
  ∀ (x : RegIdx) (s : State), Memory.wf s.cfg s.mem →
    (s.iReg.toNat + x.toNat < 0x50 → ∃ t, exec (.ldMemVx x) s = .next t ∧ t.mode = s.mode ∧
      ∀ j : RegIdx, j ≤ x → t.byteAt (s.iReg.toNat + j.toNat) = s.getV j) ∧
    (s.iReg.toNat + 2 < 0x50 → ∃ t, exec (.ldBVx x) s = .next t ∧ t.mode = s.mode ∧
      (t.byteAt s.iReg.toNat).toNat = (s.getV x).toNat / 100 ∧
      (t.byteAt (s.iReg.toNat + 1)).toNat = (s.getV x).toNat / 10 % 10 ∧
      (t.byteAt (s.iReg.toNat + 2)).toNat = (s.getV x).toNat % 10)

/-! ## Timers and the key-wait -/

/-- R97 and R100: reading and setting the delay timer. -/
def Obligations.DelayTimerIsReadAndSet : Prop :=
  ∀ (x : RegIdx) (s : State),
    (decodeWord (0xF#4 ++ x ++ 0x07#8) = .ok (.ldVxDt x) ∧ decodeWord (0xF#4 ++ x ++ 0x15#8) = .ok (.ldDtVx x)) ∧
    exec (.ldVxDt x) s = .next { s with v := s.v.set x.toNat s.dt, pc := BitVec.ofNat 16 (s.pc.toNat + 2) } ∧
    exec (.ldDtVx x) s = .next { s with dt := s.getV x, pc := BitVec.ofNat 16 (s.pc.toNat + 2) }

/-- R101 (the audio trigger at the end of the event by decision D15): the instruction writes ST, and the step that runs it leaves
the audio trigger as the new ST says. -/
def Obligations.SoundTimerSetsTheAudioTrigger : Prop :=
  ∀ (x : RegIdx) (s : State), decodeWord (0xF#4 ++ x ++ 0x18#8) = .ok (.ldStVx x) ∧
    exec (.ldStVx x) s = .next { s with st := s.getV x, pc := BitVec.ofNat 16 (s.pc.toNat + 2) } ∧
    (s.InstrNext → s.mode = .running → s.CanFetch → s.wordAtPc = 0xF#4 ++ x ++ 0x18#8 →
      ∃ t, step s = .next t ∧ t.st = s.getV x ∧ (t.audioOn = true ↔ s.getV x ≠ 0))

/-- R98 (decisions D3, D12): Fx0A enters the wait, writes no register, and PC is past it. -/
def Obligations.LdVxKEntersTheKeyWait : Prop :=
  ∀ (x : RegIdx) (s : State), decodeWord (0xF#4 ++ x ++ 0x0A#8) = .ok (.ldVxK x) ∧
    exec (.ldVxK x) s =
      .next { s with waitReg := x, mode := .awaitingKey, pc := BitVec.ofNat 16 (s.pc.toNat + 2) }

/-! ## The whole machine -/

/-- The invariant holds right after reset, whatever the configuration and the events to come (R118, R19, R26, R28). -/
def Obligations.ResetStateMeetsTheInvariant : Prop :=
  Inv State.reset ∧ ∀ (c : Config) (events : List Event), c.Valid → Inv (State.boot c events)

/-- R19, R25, R26, R28, R103, R106, and the memory's canonical form (log 10), kept by every step from every state that has them. -/
def Obligations.EveryStepKeepsTheInvariant : Prop :=
  ∀ s t : State, Inv s → step s = .next t → Inv t

/-- From a state that meets the invariant, a step stops only on a load after the first `InstrEvent` (R119). -/
def Obligations.StepStopsOnlyOnALateLoad : Prop :=
  ∀ s : State, Inv s →
    (∃ t, step s = .next t) ∨
    (step s = .refused .loadOutsideWindow ∧ s.loadWindow = false ∧ ∃ bytes, s.nextEvent = .load bytes)

/-- R107, R119: a run from reset with its loads before its first instruction goes on forever, for every configuration and every
other order of events the environment chooses. That there may be several loads is the model's choice (log 7), as are the schedule
(log 1) and the configuration in the state (log 2). -/
def Obligations.RunsWithLoadsFirstNeverStop : Prop :=
  ∀ (c : Config) (images : List (List Byte)) (events : List Event), c.Valid →
    (∀ bytes, Event.load bytes ∉ events) →
    ∀ s, Reachable c (images.map Event.load ++ events) s → ∃ t, step s = .next t

/-- R103, R104, R105 (decisions D7, D8): an instruction that halts has written the record and nothing else; the record holds the
address and the word of the instruction. -/
def Obligations.HaltingInstructionCommitsNothing : Prop :=
  ∀ (i : Instr) (s t : State), exec i s = .next t → s.mode ≠ .halted → t.mode = .halted →
    t = { s with mode := .halted, fault := t.fault } ∧
    t.fault.pc = s.pc ∧ t.fault.instr = encode i ∧ t.fault.instrValid = true ∧ t.fault.code ≠ 0 ∧
    (t.fault.code ≠ 1 → t.fault.addr = 0)

/-- R102 (codes by decision D8, InvalidKey by D11): which instruction raises which fatal condition, and when; no other halts. -/
def Obligations.FatalConditionsAreRaisedByTheseOnly : Prop :=
  ∀ (i : Instr) (s t : State), exec i s = .next t → s.mode ≠ .halted →
    (t.mode = .halted ↔
      (∃ (x y : RegIdx) (n : Nibble), i = .drw x y n ∧ n ≠ 0 ∧ s.iReg.toNat + n.toNat > 4096 ∧ t.fault.code = 1) ∨
      (∃ x, i = .ldBVx x ∧ s.iReg.toNat + 2 ≥ 4096 ∧ t.fault.code = 1) ∨
      (∃ x, (i = .ldMemVx x ∨ i = .ldVxMem x) ∧ s.iReg.toNat + x.toNat ≥ 4096 ∧ t.fault.code = 1) ∨
      (i = .ret ∧ s.sp = 0 ∧ t.fault.code = 2) ∨
      (∃ addr, i = .call addr ∧ s.sp = 16 ∧ t.fault.code = 3) ∨
      (∃ x, i = .ldFVx x ∧ (s.getV x).toNat > 0xF ∧ t.fault.code = 4) ∨
      (∃ x, (i = .skp x ∨ i = .sknp x) ∧ (s.getV x).toNat > 0xF ∧ t.fault.code = 5))

/-- R57 (decision D4), with R19, R20, R21, R22, R24, R26, R27, R29, R41: which instructions write which state. -/
def Obligations.InstructionsWriteOnlyTheirState : Prop :=
  ∀ (i : Instr) (s t : State), exec i s = .next t →
    (t.sp ≠ s.sp ∨ t.stack ≠ s.stack → i = .ret ∨ ∃ addr, i = .call addr) ∧
    (t.iReg ≠ s.iReg → (∃ addr, i = .ldI addr) ∨ ∃ x, i = .addIVx x ∨ i = .ldFVx x ∨ i = .ldMemVx x ∨ i = .ldVxMem x) ∧
    (t.dt ≠ s.dt → ∃ x, i = .ldDtVx x) ∧ (t.st ≠ s.st → ∃ x, i = .ldStVx x) ∧
    (t.waitReg ≠ s.waitReg → ∃ x, i = .ldVxK x) ∧
    (t.fb ≠ s.fb ∨ t.frameReady ≠ s.frameReady → i = .cls ∨ ∃ x y n, i = .drw x y n) ∧
    (t.mem ≠ s.mem → ∃ x, i = .ldBVx x ∨ i = .ldMemVx x) ∧
    (t.randDraws ≠ s.randDraws → ∃ x kk, i = .rnd x kk) ∧
    (t.fault ≠ s.fault → t.mode = .halted) ∧
    t.keys = s.keys ∧ t.cfg = s.cfg ∧ t.audioOn = s.audioOn ∧ t.schedule = s.schedule ∧
    t.loadWindow = s.loadWindow ∧ t.loadTooLarge = s.loadTooLarge

/-- R16, R57: the instructions that can change VF, as a flag or as the register x = 0xF. -/
def Obligations.VfIsWrittenByTheseOnly : Prop :=
  ∀ (i : Instr) (s t : State), exec i s = .next t → t.getV 0xF ≠ s.getV 0xF →
    (∃ x y, i = .addVxVy x y ∨ i = .sub x y ∨ i = .subn x y ∨ i = .shr x y ∨ i = .shl x y) ∨
    (∃ x y n, i = .drw x y n) ∨
    (∃ kk, i = .ldVxKk 0xF kk ∨ i = .addVxKk 0xF kk ∨ i = .rnd 0xF kk) ∨
    (∃ y, i = .ldVxVy 0xF y ∨ i = .orVxVy 0xF y ∨ i = .andVxVy 0xF y ∨ i = .xorVxVy 0xF y) ∨
    i = .ldVxDt 0xF ∨ i = .ldVxMem 0xF

/-- R23 (decisions D7, D32), R118: `Halted` is left only by a `ResetEvent`, and entered only with a fatal condition recorded, in an
`InstrEvent` in mode Running. -/
def Obligations.HaltedIsEnteredByFatalAndLeftByReset : Prop :=
  ∀ s t : State, step s = .next t →
    (s.mode = .halted → t.mode ≠ .halted → s.nextEvent = .reset) ∧
    (s.mode ≠ .halted → t.mode = .halted →
      s.nextEvent = .instr ∧ s.mode = .running ∧ t.fault.code ≠ 0 ∧ t.fault.pc = s.pc ∧ t.pc = s.pc)

/-- R23: `AwaitingKey` is entered only by Fx0A; it is left to Running only by a poll that finds a key, or by a `ResetEvent`. -/
def Obligations.KeyWaitIsEnteredByFx0AAndLeftByAKey : Prop :=
  ∀ s t : State, step s = .next t →
    (s.mode ≠ .awaitingKey → t.mode = .awaitingKey →
      s.nextEvent = .instr ∧ s.mode = .running ∧ ∃ x, decodeWord s.wordAtPc = .ok (.ldVxK x) ∧ t.waitReg = x) ∧
    (s.mode = .awaitingKey → t.mode ≠ .awaitingKey →
      s.nextEvent = .reset ∨ (s.nextEvent = .instr ∧ ∃ k : Fin 16, s.keys[k] = true))

/-- R27 and R31: only a `KeysEvent` changes the keys, and nothing writes the config ports (log 2). -/
def Obligations.KeysAndConfigAreTheOutsides : Prop :=
  ∀ s t : State, step s = .next t →
    t.cfg = s.cfg ∧ (t.keys ≠ s.keys → ∃ k, s.nextEvent = .keys k)

/-- R28 (decision D15): the audio trigger at the end of every event. -/
def Obligations.AudioFollowsTheSoundTimer : Prop :=
  ∀ s t : State, step s = .next t → (t.audioOn = true ↔ t.st ≠ 0 ∧ t.mode ≠ .halted)

/-- R30, R56 (decision D16): the pulse at the end of an event tells whether it ran 00E0 or Dxyn without a fatal condition. -/
def Obligations.FrameReadyPulsesAfterDisplayInstructions : Prop :=
  ∀ s t : State, step s = .next t →
    (t.frameReady = true ↔
      s.nextEvent = .instr ∧ s.mode = .running ∧ s.CanFetch ∧ t.mode ≠ .halted ∧
        (decodeWord s.wordAtPc = .ok .cls ∨ ∃ x y n, decodeWord s.wordAtPc = .ok (.drw x y n)))

/-- R22, R111, R125: whatever instruction runs, the timers change only by a `TimerEvent`, by Fx15 or Fx18, or by a reset; and a
`TimerEvent` takes at most one off each. -/
def Obligations.TimersChangeOnlyAtTimerEventsOrWrites : Prop :=
  ∀ s t : State, step s = .next t →
    (t.dt ≠ s.dt → (s.nextEvent = .timer ∧ t.dt.toNat + 1 = s.dt.toNat) ∨ s.nextEvent = .reset ∨
      (s.nextEvent = .instr ∧ ∃ x, decodeWord s.wordAtPc = .ok (.ldDtVx x))) ∧
    (t.st ≠ s.st → (s.nextEvent = .timer ∧ t.st.toNat + 1 = s.st.toNat) ∨ s.nextEvent = .reset ∨
      (s.nextEvent = .instr ∧ ∃ x, decodeWord s.wordAtPc = .ok (.ldStVx x)))

/-- R42, R44 (decision D26): a byte stored by Fx55 or Fx33 is what a later fetch reads: the word at an address is made of the two
bytes stored last at it and after it, so code can be written and run without a fence. -/
def Obligations.FetchSeesStoredBytes : Prop :=
  ∀ (x : RegIdx) (s : State), Memory.wf s.cfg s.mem → s.iReg.toNat + x.toNat < 4096 → 1 ≤ x.toNat →
    ∃ t, exec (.ldMemVx x) s = .next t ∧
      ∀ u : State, u.mem = t.mem → u.cfg = t.cfg → u.pc = s.iReg → u.fetch = .ok (s.getV 0 ++ s.getV 1)
end

