-- ==== Sys2Proof/Laws/Encoding.lean ====
section
/-! SUPPORT. The value of a word written in each format and of each field of a word (30_encoding.md R47, R48); that a format's
fields are what it was written from, and that a word is made of its fields. -/

namespace Sys2Proof

/-! ## Values -/

theorem append_toNat {m k : Nat} (a : BitVec m) (b : BitVec k) : (a ++ b).toNat = a.toNat * 2 ^ k + b.toNat := by
  rw [BitVec.toNat_append, ← Nat.shiftLeft_add_eq_or_of_lt b.isLt, Nat.shiftLeft_eq]

/-- A field is the literal of its value. -/
theorem eq_ofNat_of_toNat_eq {m k : Nat} {a : BitVec m} (h : a.toNat = k) : a = BitVec.ofNat m k := by
  rw [← h, BitVec.ofNat_toNat, BitVec.setWidth_eq]

variable (op x y n : BitVec 4) (addr : Addr) (kk : Byte) (w : Word)

theorem fmtNNN_toNat : (fmtNNN op addr).toNat = op.toNat * 4096 + addr.toNat := append_toNat op addr
theorem fmtXKK_toNat : (fmtXKK op x kk).toNat = op.toNat * 4096 + x.toNat * 256 + kk.toNat := by
  have h : (fmtXKK op x kk).toNat = (op ++ x).toNat * 2 ^ 8 + kk.toNat := append_toNat (op ++ x) kk
  rw [h, append_toNat op x]
  omega
theorem fmtX_toNat : (fmtX op x kk).toNat = op.toNat * 4096 + x.toNat * 256 + kk.toNat := fmtXKK_toNat op x kk
theorem fmtXYN_toNat :
    (fmtXYN op x y n).toNat = op.toNat * 4096 + x.toNat * 256 + y.toNat * 16 + n.toNat := by
  have h : (fmtXYN op x y n).toNat = (op ++ x ++ y).toNat * 2 ^ 4 + n.toNat := append_toNat (op ++ x ++ y) n
  rw [h, append_toNat (op ++ x) y, append_toNat op x]
  omega

theorem fieldOp_toNat : (fieldOp w).toNat = w.toNat / 4096 % 16 := by
  simp [fieldOp, BitVec.extractLsb'_toNat, Nat.shiftRight_eq_div_pow]
theorem fieldX_toNat : (fieldX w).toNat = w.toNat / 256 % 16 := by
  simp [fieldX, BitVec.extractLsb'_toNat, Nat.shiftRight_eq_div_pow]
theorem fieldY_toNat : (fieldY w).toNat = w.toNat / 16 % 16 := by
  simp [fieldY, BitVec.extractLsb'_toNat, Nat.shiftRight_eq_div_pow]
theorem fieldN_toNat : (fieldN w).toNat = w.toNat % 16 := by
  simp [fieldN, BitVec.extractLsb'_toNat]
theorem fieldKk_toNat : (fieldKk w).toNat = w.toNat % 256 := by
  simp [fieldKk, BitVec.extractLsb'_toNat]
theorem fieldAddr_toNat : (fieldAddr w).toNat = w.toNat % 4096 := by
  simp [fieldAddr, BitVec.extractLsb'_toNat]

/-! ## The fields of a format -/

@[simp] theorem fieldOp_fmtNNN : fieldOp (fmtNNN op addr) = op :=
  BitVec.eq_of_toNat_eq (by rw [fieldOp_toNat, fmtNNN_toNat]; omega)
@[simp] theorem fieldAddr_fmtNNN : fieldAddr (fmtNNN op addr) = addr :=
  BitVec.eq_of_toNat_eq (by rw [fieldAddr_toNat, fmtNNN_toNat]; omega)

@[simp] theorem fieldOp_fmtXKK : fieldOp (fmtXKK op x kk) = op :=
  BitVec.eq_of_toNat_eq (by rw [fieldOp_toNat, fmtXKK_toNat]; omega)
@[simp] theorem fieldX_fmtXKK : fieldX (fmtXKK op x kk) = x :=
  BitVec.eq_of_toNat_eq (by rw [fieldX_toNat, fmtXKK_toNat]; omega)
@[simp] theorem fieldKk_fmtXKK : fieldKk (fmtXKK op x kk) = kk :=
  BitVec.eq_of_toNat_eq (by rw [fieldKk_toNat, fmtXKK_toNat]; omega)

@[simp] theorem fieldOp_fmtX : fieldOp (fmtX op x kk) = op := fieldOp_fmtXKK op x kk
@[simp] theorem fieldX_fmtX : fieldX (fmtX op x kk) = x := fieldX_fmtXKK op x kk
@[simp] theorem fieldKk_fmtX : fieldKk (fmtX op x kk) = kk := fieldKk_fmtXKK op x kk

@[simp] theorem fieldOp_fmtXYN : fieldOp (fmtXYN op x y n) = op :=
  BitVec.eq_of_toNat_eq (by rw [fieldOp_toNat, fmtXYN_toNat]; omega)
@[simp] theorem fieldX_fmtXYN : fieldX (fmtXYN op x y n) = x :=
  BitVec.eq_of_toNat_eq (by rw [fieldX_toNat, fmtXYN_toNat]; omega)
@[simp] theorem fieldY_fmtXYN : fieldY (fmtXYN op x y n) = y :=
  BitVec.eq_of_toNat_eq (by rw [fieldY_toNat, fmtXYN_toNat]; omega)
@[simp] theorem fieldN_fmtXYN : fieldN (fmtXYN op x y n) = n :=
  BitVec.eq_of_toNat_eq (by rw [fieldN_toNat, fmtXYN_toNat]; omega)

/-! ## A word is made of its fields -/

theorem fmtNNN_fields : fmtNNN (fieldOp w) (fieldAddr w) = w :=
  BitVec.eq_of_toNat_eq (by rw [fmtNNN_toNat, fieldOp_toNat, fieldAddr_toNat]; omega)
theorem fmtXKK_fields : fmtXKK (fieldOp w) (fieldX w) (fieldKk w) = w :=
  BitVec.eq_of_toNat_eq (by rw [fmtXKK_toNat, fieldOp_toNat, fieldX_toNat, fieldKk_toNat]; omega)
theorem fmtXYN_fields : fmtXYN (fieldOp w) (fieldX w) (fieldY w) (fieldN w) = w :=
  BitVec.eq_of_toNat_eq (by rw [fmtXYN_toNat, fieldOp_toNat, fieldX_toNat, fieldY_toNat, fieldN_toNat]; omega)

/-- A word's bytes in memory order make the word again (20_memory.md R39). -/
theorem wordOfBytes_bytesOfWord : wordOfBytes (w.extractLsb' 8 8) (w.extractLsb' 0 8) = w :=
  BitVec.eq_of_toNat_eq ((append_toNat _ _).trans (by
    simp only [BitVec.extractLsb'_toNat, Nat.shiftRight_eq_div_pow]; omega))

end Sys2Proof
end

