-- ==== Sys2Proof/Laws/Framebuffer.lean ====
section
/-! SUPPORT. The framebuffer operations: what a pixel is after each, and that each keeps the configured size. -/

namespace Sys2Proof.Machine

theorem blankFramebuffer_wf (c : Config) : Framebuffer.wf c (blankFramebuffer c) := by
  refine ⟨by simp [blankFramebuffer], fun line h => ?_⟩
  simp [blankFramebuffer] at h
  simp [h.2]

theorem blankFramebuffer_pixel (c : Config) (row col : Nat) : (blankFramebuffer c).pixel row col = false := by
  simp only [Framebuffer.pixel, blankFramebuffer, List.getD_eq_getElem?_getD, List.getElem?_replicate]
  by_cases hr : row < c.fbH
  · simp only [hr, if_true, Option.getD_some, List.getElem?_replicate]
    by_cases hc : col < c.fbW <;> simp [hc]
  · simp [hr]

/-- Flipping one pixel of the grid flips that pixel and no other. -/
theorem Framebuffer.pixel_toggle {c : Config} {fb : Framebuffer} (h : Framebuffer.wf c fb) {row col : Nat}
    (hr : row < c.fbH) (hc : col < c.fbW) (i j : Nat) :
    (fb.toggle row col).pixel i j = (fb.pixel i j ^^ (decide (i = row) && decide (j = col))) := by
  obtain ⟨hlen, hline⟩ := h
  simp only [Framebuffer.pixel, Framebuffer.toggle, List.getD_eq_getElem?_getD, List.getElem?_modify]
  by_cases hi : row = i
  · subst hi
    have hrow : row < fb.length := by omega
    have hw : fb[row].length = c.fbW := hline _ (List.getElem_mem hrow)
    have hcol : col < fb[row].length := by omega
    by_cases hj : col = j
    · subst hj
      simp [List.getElem?_eq_getElem hrow, List.getElem?_eq_getElem hcol]
    · have hj' : ¬ j = col := fun e => hj e.symm
      simp [List.getElem?_eq_getElem hrow, hj, hj']
  · have hi' : ¬ i = row := fun e => hi e.symm
    cases hx : fb[i]? <;> simp [hi, hi']

theorem Framebuffer.toggle_wf {c : Config} {fb : Framebuffer} (h : Framebuffer.wf c fb) (row col : Nat) :
    Framebuffer.wf c (fb.toggle row col) := by
  obtain ⟨hlen, hline⟩ := h
  refine ⟨by simp [Framebuffer.toggle, hlen], fun line hl => ?_⟩
  obtain ⟨i, hi, rfl⟩ := List.getElem_of_mem hl
  simp only [Framebuffer.toggle, List.getElem_modify]
  have hi' : i < fb.length := by simpa [Framebuffer.toggle] using hi
  split <;> simp [hline _ (List.getElem_mem hi')]

theorem drawBit_wf {c : Config} {d : Drawing} (h : Framebuffer.wf c d.fb) (x0 y0 r : Nat) (b : Byte) (k : Nat) :
    Framebuffer.wf c (drawBit c x0 y0 r b d k).fb := by
  unfold drawBit
  split
  · exact Framebuffer.toggle_wf h _ _
  · exact h

theorem drawRow_wf {c : Config} {d : Drawing} (h : Framebuffer.wf c d.fb) (x0 y0 r : Nat) (b : Byte) :
    Framebuffer.wf c (drawRow c x0 y0 r b d).fb := by
  unfold drawRow
  generalize List.range 8 = cols
  induction cols generalizing d with
  | nil => exact h
  | cons k cols ih => exact ih (drawBit_wf h x0 y0 r b k)

/-- A draw keeps the configured size. -/
theorem drawRows_wf {c : Config} {d : Drawing} (h : Framebuffer.wf c d.fb) (x0 y0 r : Nat) (bytes : List Byte) :
    Framebuffer.wf c (drawRows c x0 y0 r d bytes).fb := by
  induction bytes generalizing d r with
  | nil => exact h
  | cons b bs ih => exact ih (drawRow_wf h x0 y0 r b) (r + 1)

/-! ## A draw as a list of pixels to flip -/

/-- The pixels under the 1 bits of sprite row `r`, in drawing order (40_display.md R60). -/
def rowCells (cfg : Config) (x0 y0 r : Nat) (b : Byte) : List (Nat × Nat) :=
  ((List.range 8).filter (spriteBit b)).map fun c => ((y0 + r) % cfg.fbH, (x0 + c) % cfg.fbW)

/-- The pixels under the 1 bits of the sprite rows from `r` on, in drawing order. -/
def spriteCells (cfg : Config) (x0 y0 : Nat) (r : Nat) : List Byte → List (Nat × Nat)
  | [] => []
  | b :: bs => rowCells cfg x0 y0 r b ++ spriteCells cfg x0 y0 (r + 1) bs

/-- One 1 bit of a sprite: the pixel is flipped, and its being lit is a collision (R61). -/
def plot (d : Drawing) (p : Nat × Nat) : Drawing :=
  { fb := d.fb.toggle p.1 p.2, collision := d.collision || d.fb.pixel p.1 p.2 }

theorem drawRow_eq_foldl (cfg : Config) (x0 y0 r : Nat) (b : Byte) (d : Drawing) :
    drawRow cfg x0 y0 r b d = (rowCells cfg x0 y0 r b).foldl plot d := by
  rw [drawRow, rowCells, List.foldl_map, List.foldl_filter]
  rfl

/-- A draw flips the listed pixels one after the other. -/
theorem drawRows_eq_foldl (cfg : Config) (x0 y0 r : Nat) (d : Drawing) (bytes : List Byte) :
    drawRows cfg x0 y0 r d bytes = (spriteCells cfg x0 y0 r bytes).foldl plot d := by
  induction bytes generalizing r d with
  | nil => rfl
  | cons b bs ih => rw [drawRows, spriteCells, List.foldl_append, ih, drawRow_eq_foldl]

/-- Flipping pixels of the grid, each once: each listed pixel is flipped, no other is, and there is a collision exactly if one of
them was lit at first. -/
theorem foldl_plot {c : Config} {d : Drawing} {cells : List (Nat × Nat)} (h : Framebuffer.wf c d.fb)
    (hin : ∀ p ∈ cells, p.1 < c.fbH ∧ p.2 < c.fbW) (hnd : cells.Nodup) :
    (∀ i j, (cells.foldl plot d).fb.pixel i j = (d.fb.pixel i j ^^ decide ((i, j) ∈ cells))) ∧
    (cells.foldl plot d).collision = (d.collision || cells.any fun p => d.fb.pixel p.1 p.2) := by
  induction cells generalizing d with
  | nil => simp
  | cons p ps ih =>
    obtain ⟨hp, hnd⟩ := List.nodup_cons.1 hnd
    have hpin := hin p (by simp)
    have hpx := Framebuffer.pixel_toggle h hpin.1 hpin.2
    obtain ⟨h1, h2⟩ := ih (d := plot d p) (Framebuffer.toggle_wf h _ _) (fun q hq => hin q (by simp [hq])) hnd
    constructor
    · intro i j
      rw [List.foldl_cons, h1]
      simp only [plot, hpx, List.mem_cons]
      by_cases e : (i, j) = p
      · subst e; simp [hp]
      · have e' : ¬ (i = p.1 ∧ j = p.2) := fun hh => e (Prod.ext hh.1 hh.2)
        by_cases hi : i = p.1
        · have hj : ¬ j = p.2 := fun hj => e' ⟨hi, hj⟩
          simp [e, hj]
        · simp [e, hi]
    · rw [List.foldl_cons, h2, List.any_cons]
      have hsame : ∀ q ∈ ps, (plot d p).fb.pixel q.1 q.2 = d.fb.pixel q.1 q.2 := by
        intro q hq
        simp only [plot, hpx]
        by_cases e1 : q.1 = p.1
        · have e2 : ¬ q.2 = p.2 := fun e2 => hp (by rwa [← show q = p from Prod.ext e1 e2])
          simp [e2]
        · simp [e1]
      have hany : (ps.any fun q => (plot d p).fb.pixel q.1 q.2) = ps.any fun q => d.fb.pixel q.1 q.2 := by
        rw [Bool.eq_iff_iff, List.any_eq_true, List.any_eq_true]
        exact ⟨fun ⟨q, hq, hl⟩ => ⟨q, hq, by rwa [← hsame q hq]⟩, fun ⟨q, hq, hl⟩ => ⟨q, hq, by rwa [hsame q hq]⟩⟩
      rw [hany]
      simp [plot, Bool.or_assoc]

theorem mem_rowCells {cfg : Config} {x0 y0 r : Nat} {b : Byte} {p : Nat × Nat} :
    p ∈ rowCells cfg x0 y0 r b ↔
      ∃ c, c < 8 ∧ spriteBit b c = true ∧ (y0 + r) % cfg.fbH = p.1 ∧ (x0 + c) % cfg.fbW = p.2 := by
  simp only [rowCells, List.mem_map, List.mem_filter, List.mem_range, Prod.ext_iff, and_assoc]

theorem mem_spriteCells {cfg : Config} {x0 y0 r : Nat} {bytes : List Byte} {p : Nat × Nat} :
    p ∈ spriteCells cfg x0 y0 r bytes ↔
      ∃ k c, k < bytes.length ∧ c < 8 ∧ spriteBit (bytes.getD k 0) c = true ∧
        (y0 + (r + k)) % cfg.fbH = p.1 ∧ (x0 + c) % cfg.fbW = p.2 := by
  induction bytes generalizing r with
  | nil => simp [spriteCells]
  | cons b bs ih =>
    rw [spriteCells, List.mem_append, mem_rowCells, ih]
    constructor
    · rintro (⟨c, h⟩ | ⟨k, c, hk, h⟩)
      · exact ⟨0, c, by simp, by simpa using h⟩
      · exact ⟨k + 1, c, by simpa using hk, by simpa [Nat.add_assoc, Nat.add_comm 1 k] using h⟩
    · rintro ⟨k, c, hk, h⟩
      cases k with
      | zero => exact .inl ⟨c, by simpa using h⟩
      | succ k => exact .inr ⟨k, c, by simpa using hk, by simpa [Nat.add_assoc, Nat.add_comm 1 k] using h⟩

/-- Two offsets less than the modulus apart are equal if they wrap to the same place. -/
theorem eq_of_mod_eq_of_close {a i j m : Nat} (h : (a + i) % m = (a + j) % m) (hi : i < m) (hj : j < m) : i = j := by
  have h' : i ≡ j [MOD m] := Nat.ModEq.add_left_cancel' a h
  rwa [Nat.ModEq, Nat.mod_eq_of_lt hi, Nat.mod_eq_of_lt hj] at h'

/-- On a grid at least as large as the sprite no pixel is listed twice (40_display.md R61). -/
theorem nodup_spriteCells {cfg : Config} (x0 y0 : Nat) {r : Nat} {bytes : List Byte} (hW : 8 ≤ cfg.fbW)
    (hH : r + bytes.length ≤ cfg.fbH) : (spriteCells cfg x0 y0 r bytes).Nodup := by
  induction bytes generalizing r with
  | nil => simp [spriteCells]
  | cons b bs ih =>
    simp only [List.length_cons] at hH
    rw [spriteCells, List.nodup_append]
    refine ⟨?_, ih (by omega), ?_⟩
    · rw [rowCells, List.nodup_map_iff_inj_on (List.nodup_range.filter _)]
      intro i hi j hj h
      simp only [List.mem_filter, List.mem_range] at hi hj
      exact eq_of_mod_eq_of_close (congrArg Prod.snd h) (by omega) (by omega)
    · rintro p hp q hq rfl
      obtain ⟨-, -, -, h1, -⟩ := mem_rowCells.1 hp
      obtain ⟨k, c, hk, -, -, h2, -⟩ := mem_spriteCells.1 hq
      have := eq_of_mod_eq_of_close (h1.trans h2.symm) (by omega) (by omega)
      omega

end Sys2Proof.Machine
end

