-- ==== Sys2Proof/Laws/State.lean ====
section
/-! SUPPORT. What each update of the state leaves in each field, one lemma per field per update, and the updates that are
short for another. -/

namespace Sys2Proof.Machine

variable (s : State)

/-! ## setV -/

@[simp] theorem State.setV_v (x : RegIdx) (b : Byte) : (s.setV x b).v = s.v.set x.toNat b := rfl
@[simp] theorem State.setV_pc (x : RegIdx) (b : Byte) : (s.setV x b).pc = s.pc := rfl
@[simp] theorem State.setV_iReg (x : RegIdx) (b : Byte) : (s.setV x b).iReg = s.iReg := rfl
@[simp] theorem State.setV_sp (x : RegIdx) (b : Byte) : (s.setV x b).sp = s.sp := rfl
@[simp] theorem State.setV_stack (x : RegIdx) (b : Byte) : (s.setV x b).stack = s.stack := rfl
@[simp] theorem State.setV_dt (x : RegIdx) (b : Byte) : (s.setV x b).dt = s.dt := rfl
@[simp] theorem State.setV_st (x : RegIdx) (b : Byte) : (s.setV x b).st = s.st := rfl
@[simp] theorem State.setV_mode (x : RegIdx) (b : Byte) : (s.setV x b).mode = s.mode := rfl
@[simp] theorem State.setV_waitReg (x : RegIdx) (b : Byte) : (s.setV x b).waitReg = s.waitReg := rfl
@[simp] theorem State.setV_fault (x : RegIdx) (b : Byte) : (s.setV x b).fault = s.fault := rfl
@[simp] theorem State.setV_fb (x : RegIdx) (b : Byte) : (s.setV x b).fb = s.fb := rfl
@[simp] theorem State.setV_keys (x : RegIdx) (b : Byte) : (s.setV x b).keys = s.keys := rfl
@[simp] theorem State.setV_audioOn (x : RegIdx) (b : Byte) : (s.setV x b).audioOn = s.audioOn := rfl
@[simp] theorem State.setV_frameReady (x : RegIdx) (b : Byte) : (s.setV x b).frameReady = s.frameReady := rfl
@[simp] theorem State.setV_mem (x : RegIdx) (b : Byte) : (s.setV x b).mem = s.mem := rfl
@[simp] theorem State.setV_cfg (x : RegIdx) (b : Byte) : (s.setV x b).cfg = s.cfg := rfl
@[simp] theorem State.setV_randDraws (x : RegIdx) (b : Byte) : (s.setV x b).randDraws = s.randDraws := rfl
@[simp] theorem State.setV_loadWindow (x : RegIdx) (b : Byte) : (s.setV x b).loadWindow = s.loadWindow := rfl
@[simp] theorem State.setV_loadTooLarge (x : RegIdx) (b : Byte) : (s.setV x b).loadTooLarge = s.loadTooLarge := rfl
@[simp] theorem State.setV_schedule (x : RegIdx) (b : Byte) : (s.setV x b).schedule = s.schedule := rfl

/-! ## setI -/

@[simp] theorem State.setI_v (w : Word) : (s.setI w).v = s.v := rfl
@[simp] theorem State.setI_pc (w : Word) : (s.setI w).pc = s.pc := rfl
@[simp] theorem State.setI_iReg (w : Word) : (s.setI w).iReg = w := rfl
@[simp] theorem State.setI_sp (w : Word) : (s.setI w).sp = s.sp := rfl
@[simp] theorem State.setI_stack (w : Word) : (s.setI w).stack = s.stack := rfl
@[simp] theorem State.setI_dt (w : Word) : (s.setI w).dt = s.dt := rfl
@[simp] theorem State.setI_st (w : Word) : (s.setI w).st = s.st := rfl
@[simp] theorem State.setI_mode (w : Word) : (s.setI w).mode = s.mode := rfl
@[simp] theorem State.setI_waitReg (w : Word) : (s.setI w).waitReg = s.waitReg := rfl
@[simp] theorem State.setI_fault (w : Word) : (s.setI w).fault = s.fault := rfl
@[simp] theorem State.setI_fb (w : Word) : (s.setI w).fb = s.fb := rfl
@[simp] theorem State.setI_keys (w : Word) : (s.setI w).keys = s.keys := rfl
@[simp] theorem State.setI_audioOn (w : Word) : (s.setI w).audioOn = s.audioOn := rfl
@[simp] theorem State.setI_frameReady (w : Word) : (s.setI w).frameReady = s.frameReady := rfl
@[simp] theorem State.setI_mem (w : Word) : (s.setI w).mem = s.mem := rfl
@[simp] theorem State.setI_cfg (w : Word) : (s.setI w).cfg = s.cfg := rfl
@[simp] theorem State.setI_randDraws (w : Word) : (s.setI w).randDraws = s.randDraws := rfl
@[simp] theorem State.setI_loadWindow (w : Word) : (s.setI w).loadWindow = s.loadWindow := rfl
@[simp] theorem State.setI_loadTooLarge (w : Word) : (s.setI w).loadTooLarge = s.loadTooLarge := rfl
@[simp] theorem State.setI_schedule (w : Word) : (s.setI w).schedule = s.schedule := rfl

/-! ## setPc -/

@[simp] theorem State.setPc_v (w : Word) : (s.setPc w).v = s.v := rfl
@[simp] theorem State.setPc_pc (w : Word) : (s.setPc w).pc = w := rfl
@[simp] theorem State.setPc_iReg (w : Word) : (s.setPc w).iReg = s.iReg := rfl
@[simp] theorem State.setPc_sp (w : Word) : (s.setPc w).sp = s.sp := rfl
@[simp] theorem State.setPc_stack (w : Word) : (s.setPc w).stack = s.stack := rfl
@[simp] theorem State.setPc_dt (w : Word) : (s.setPc w).dt = s.dt := rfl
@[simp] theorem State.setPc_st (w : Word) : (s.setPc w).st = s.st := rfl
@[simp] theorem State.setPc_mode (w : Word) : (s.setPc w).mode = s.mode := rfl
@[simp] theorem State.setPc_waitReg (w : Word) : (s.setPc w).waitReg = s.waitReg := rfl
@[simp] theorem State.setPc_fault (w : Word) : (s.setPc w).fault = s.fault := rfl
@[simp] theorem State.setPc_fb (w : Word) : (s.setPc w).fb = s.fb := rfl
@[simp] theorem State.setPc_keys (w : Word) : (s.setPc w).keys = s.keys := rfl
@[simp] theorem State.setPc_audioOn (w : Word) : (s.setPc w).audioOn = s.audioOn := rfl
@[simp] theorem State.setPc_frameReady (w : Word) : (s.setPc w).frameReady = s.frameReady := rfl
@[simp] theorem State.setPc_mem (w : Word) : (s.setPc w).mem = s.mem := rfl
@[simp] theorem State.setPc_cfg (w : Word) : (s.setPc w).cfg = s.cfg := rfl
@[simp] theorem State.setPc_randDraws (w : Word) : (s.setPc w).randDraws = s.randDraws := rfl
@[simp] theorem State.setPc_loadWindow (w : Word) : (s.setPc w).loadWindow = s.loadWindow := rfl
@[simp] theorem State.setPc_loadTooLarge (w : Word) : (s.setPc w).loadTooLarge = s.loadTooLarge := rfl
@[simp] theorem State.setPc_schedule (w : Word) : (s.setPc w).schedule = s.schedule := rfl

/-! ## putByte -/

@[simp] theorem State.putByte_v (a : Nat) (b : Byte) : (s.putByte a b).v = s.v := rfl
@[simp] theorem State.putByte_pc (a : Nat) (b : Byte) : (s.putByte a b).pc = s.pc := rfl
@[simp] theorem State.putByte_iReg (a : Nat) (b : Byte) : (s.putByte a b).iReg = s.iReg := rfl
@[simp] theorem State.putByte_sp (a : Nat) (b : Byte) : (s.putByte a b).sp = s.sp := rfl
@[simp] theorem State.putByte_stack (a : Nat) (b : Byte) : (s.putByte a b).stack = s.stack := rfl
@[simp] theorem State.putByte_dt (a : Nat) (b : Byte) : (s.putByte a b).dt = s.dt := rfl
@[simp] theorem State.putByte_st (a : Nat) (b : Byte) : (s.putByte a b).st = s.st := rfl
@[simp] theorem State.putByte_mode (a : Nat) (b : Byte) : (s.putByte a b).mode = s.mode := rfl
@[simp] theorem State.putByte_waitReg (a : Nat) (b : Byte) : (s.putByte a b).waitReg = s.waitReg := rfl
@[simp] theorem State.putByte_fault (a : Nat) (b : Byte) : (s.putByte a b).fault = s.fault := rfl
@[simp] theorem State.putByte_fb (a : Nat) (b : Byte) : (s.putByte a b).fb = s.fb := rfl
@[simp] theorem State.putByte_keys (a : Nat) (b : Byte) : (s.putByte a b).keys = s.keys := rfl
@[simp] theorem State.putByte_audioOn (a : Nat) (b : Byte) : (s.putByte a b).audioOn = s.audioOn := rfl
@[simp] theorem State.putByte_frameReady (a : Nat) (b : Byte) : (s.putByte a b).frameReady = s.frameReady := rfl
@[simp] theorem State.putByte_mem (a : Nat) (b : Byte) :
    (s.putByte a b).mem = Memory.put (resetByte s.cfg a) s.mem a b := rfl
@[simp] theorem State.putByte_cfg (a : Nat) (b : Byte) : (s.putByte a b).cfg = s.cfg := rfl
@[simp] theorem State.putByte_randDraws (a : Nat) (b : Byte) : (s.putByte a b).randDraws = s.randDraws := rfl
@[simp] theorem State.putByte_loadWindow (a : Nat) (b : Byte) : (s.putByte a b).loadWindow = s.loadWindow := rfl
@[simp] theorem State.putByte_loadTooLarge (a : Nat) (b : Byte) : (s.putByte a b).loadTooLarge = s.loadTooLarge := rfl
@[simp] theorem State.putByte_schedule (a : Nat) (b : Byte) : (s.putByte a b).schedule = s.schedule := rfl

/-! ## raiseFatal -/

@[simp] theorem State.raiseFatal_v (f : FatalCondition) (w : Option Word) : (s.raiseFatal f w).v = s.v := rfl
@[simp] theorem State.raiseFatal_pc (f : FatalCondition) (w : Option Word) : (s.raiseFatal f w).pc = s.pc := rfl
@[simp] theorem State.raiseFatal_iReg (f : FatalCondition) (w : Option Word) : (s.raiseFatal f w).iReg = s.iReg := rfl
@[simp] theorem State.raiseFatal_sp (f : FatalCondition) (w : Option Word) : (s.raiseFatal f w).sp = s.sp := rfl
@[simp] theorem State.raiseFatal_stack (f : FatalCondition) (w : Option Word) :
    (s.raiseFatal f w).stack = s.stack := rfl
@[simp] theorem State.raiseFatal_dt (f : FatalCondition) (w : Option Word) : (s.raiseFatal f w).dt = s.dt := rfl
@[simp] theorem State.raiseFatal_st (f : FatalCondition) (w : Option Word) : (s.raiseFatal f w).st = s.st := rfl
@[simp] theorem State.raiseFatal_mode (f : FatalCondition) (w : Option Word) :
    (s.raiseFatal f w).mode = .halted := rfl
@[simp] theorem State.raiseFatal_waitReg (f : FatalCondition) (w : Option Word) :
    (s.raiseFatal f w).waitReg = s.waitReg := rfl
@[simp] theorem State.raiseFatal_fault (f : FatalCondition) (w : Option Word) :
    (s.raiseFatal f w).fault = { code := f.code, pc := s.pc, instr := w.getD 0, instrValid := w.isSome, addr := f.addr } := rfl
@[simp] theorem State.raiseFatal_fb (f : FatalCondition) (w : Option Word) : (s.raiseFatal f w).fb = s.fb := rfl
@[simp] theorem State.raiseFatal_keys (f : FatalCondition) (w : Option Word) : (s.raiseFatal f w).keys = s.keys := rfl
@[simp] theorem State.raiseFatal_audioOn (f : FatalCondition) (w : Option Word) :
    (s.raiseFatal f w).audioOn = s.audioOn := rfl
@[simp] theorem State.raiseFatal_frameReady (f : FatalCondition) (w : Option Word) :
    (s.raiseFatal f w).frameReady = s.frameReady := rfl
@[simp] theorem State.raiseFatal_mem (f : FatalCondition) (w : Option Word) : (s.raiseFatal f w).mem = s.mem := rfl
@[simp] theorem State.raiseFatal_cfg (f : FatalCondition) (w : Option Word) : (s.raiseFatal f w).cfg = s.cfg := rfl
@[simp] theorem State.raiseFatal_randDraws (f : FatalCondition) (w : Option Word) :
    (s.raiseFatal f w).randDraws = s.randDraws := rfl
@[simp] theorem State.raiseFatal_loadWindow (f : FatalCondition) (w : Option Word) :
    (s.raiseFatal f w).loadWindow = s.loadWindow := rfl
@[simp] theorem State.raiseFatal_loadTooLarge (f : FatalCondition) (w : Option Word) :
    (s.raiseFatal f w).loadTooLarge = s.loadTooLarge := rfl
@[simp] theorem State.raiseFatal_schedule (f : FatalCondition) (w : Option Word) :
    (s.raiseFatal f w).schedule = s.schedule := rfl

/-! ## beginEvent -/

@[simp] theorem State.beginEvent_v : (s.beginEvent).v = s.v := rfl
@[simp] theorem State.beginEvent_pc : (s.beginEvent).pc = s.pc := rfl
@[simp] theorem State.beginEvent_iReg : (s.beginEvent).iReg = s.iReg := rfl
@[simp] theorem State.beginEvent_sp : (s.beginEvent).sp = s.sp := rfl
@[simp] theorem State.beginEvent_stack : (s.beginEvent).stack = s.stack := rfl
@[simp] theorem State.beginEvent_dt : (s.beginEvent).dt = s.dt := rfl
@[simp] theorem State.beginEvent_st : (s.beginEvent).st = s.st := rfl
@[simp] theorem State.beginEvent_mode : (s.beginEvent).mode = s.mode := rfl
@[simp] theorem State.beginEvent_waitReg : (s.beginEvent).waitReg = s.waitReg := rfl
@[simp] theorem State.beginEvent_fault : (s.beginEvent).fault = s.fault := rfl
@[simp] theorem State.beginEvent_fb : (s.beginEvent).fb = s.fb := rfl
@[simp] theorem State.beginEvent_keys : (s.beginEvent).keys = s.keys := rfl
@[simp] theorem State.beginEvent_audioOn : (s.beginEvent).audioOn = s.audioOn := rfl
@[simp] theorem State.beginEvent_frameReady : (s.beginEvent).frameReady = false := rfl
@[simp] theorem State.beginEvent_mem : (s.beginEvent).mem = s.mem := rfl
@[simp] theorem State.beginEvent_cfg : (s.beginEvent).cfg = s.cfg := rfl
@[simp] theorem State.beginEvent_randDraws : (s.beginEvent).randDraws = s.randDraws := rfl
@[simp] theorem State.beginEvent_loadWindow : (s.beginEvent).loadWindow = s.loadWindow := rfl
@[simp] theorem State.beginEvent_loadTooLarge : (s.beginEvent).loadTooLarge = false := rfl
@[simp] theorem State.beginEvent_schedule : (s.beginEvent).schedule = s.schedule := rfl

/-! ## endEvent -/

@[simp] theorem State.endEvent_v : (s.endEvent).v = s.v := rfl
@[simp] theorem State.endEvent_pc : (s.endEvent).pc = s.pc := rfl
@[simp] theorem State.endEvent_iReg : (s.endEvent).iReg = s.iReg := rfl
@[simp] theorem State.endEvent_sp : (s.endEvent).sp = s.sp := rfl
@[simp] theorem State.endEvent_stack : (s.endEvent).stack = s.stack := rfl
@[simp] theorem State.endEvent_dt : (s.endEvent).dt = s.dt := rfl
@[simp] theorem State.endEvent_st : (s.endEvent).st = s.st := rfl
@[simp] theorem State.endEvent_mode : (s.endEvent).mode = s.mode := rfl
@[simp] theorem State.endEvent_waitReg : (s.endEvent).waitReg = s.waitReg := rfl
@[simp] theorem State.endEvent_fault : (s.endEvent).fault = s.fault := rfl
@[simp] theorem State.endEvent_fb : (s.endEvent).fb = s.fb := rfl
@[simp] theorem State.endEvent_keys : (s.endEvent).keys = s.keys := rfl
@[simp] theorem State.endEvent_audioOn :
    (s.endEvent).audioOn = (decide (s.st ≠ 0) && decide (s.mode ≠ .halted)) := rfl
@[simp] theorem State.endEvent_frameReady : (s.endEvent).frameReady = s.frameReady := rfl
@[simp] theorem State.endEvent_mem : (s.endEvent).mem = s.mem := rfl
@[simp] theorem State.endEvent_cfg : (s.endEvent).cfg = s.cfg := rfl
@[simp] theorem State.endEvent_randDraws : (s.endEvent).randDraws = s.randDraws := rfl
@[simp] theorem State.endEvent_loadWindow : (s.endEvent).loadWindow = s.loadWindow := rfl
@[simp] theorem State.endEvent_loadTooLarge : (s.endEvent).loadTooLarge = s.loadTooLarge := rfl
@[simp] theorem State.endEvent_schedule : (s.endEvent).schedule = s.schedule := rfl

/-! ## Short forms -/

@[simp] theorem State.advance_eq : s.advance = s.setPc (s.pcPlus 2) := rfl
@[simp] theorem State.skipIf_eq (c : Bool) : s.skipIf c = s.setPc (s.pcPlus (if c then 4 else 2)) := rfl
@[simp] theorem State.addI_eq (k : Nat) : s.addI k = s.setI (trunc16 (s.iReg.toNat + k)) := rfl
@[simp] theorem State.setVAndFlag_eq (x : RegIdx) (r : Byte) (f : Bool) :
    s.setVAndFlag x r f = (s.setV x r).setV vf (flagByte f) := rfl
@[simp] theorem State.effectiveAddr_zero : s.effectiveAddr 0 = s.iReg.toNat := rfl
@[simp] theorem State.byteAt_setV (x : RegIdx) (b : Byte) (a : Nat) : (s.setV x b).byteAt a = s.byteAt a := rfl
@[simp] theorem State.byteAt_setI (w : Word) (a : Nat) : (s.setI w).byteAt a = s.byteAt a := rfl
@[simp] theorem State.byteAt_setPc (w : Word) (a : Nat) : (s.setPc w).byteAt a = s.byteAt a := rfl
@[simp] theorem State.byteAt_raiseFatal (f : FatalCondition) (w : Option Word) (a : Nat) :
    (s.raiseFatal f w).byteAt a = s.byteAt a := rfl
@[simp] theorem State.byteAt_beginEvent (a : Nat) : s.beginEvent.byteAt a = s.byteAt a := rfl
@[simp] theorem State.byteAt_endEvent (a : Nat) : s.endEvent.byteAt a = s.byteAt a := rfl

/-! ## Registers -/

/-- A register read after a write: the one written holds the byte, every other is as before. -/
theorem State.getV_setV (x j : RegIdx) (b : Byte) :
    (s.setV x b).getV j = if j = x then b else s.getV j := by
  simp only [State.getV, State.setV, Vector.getElem_set]
  by_cases h : j = x
  · simp [h]
  · have : ¬ x.toNat = j.toNat := fun e => h (BitVec.eq_of_toNat_eq e.symm)
    simp [h, this]

@[simp] theorem State.getV_setV_self (x : RegIdx) (b : Byte) : (s.setV x b).getV x = b := by
  simp [State.getV_setV]

@[simp] theorem State.getV_setI (w : Word) (j : RegIdx) : (s.setI w).getV j = s.getV j := rfl
@[simp] theorem State.getV_setPc (w : Word) (j : RegIdx) : (s.setPc w).getV j = s.getV j := rfl
@[simp] theorem State.getV_putByte (a : Nat) (b : Byte) (j : RegIdx) : (s.putByte a b).getV j = s.getV j := rfl
@[simp] theorem State.getV_raiseFatal (f : FatalCondition) (w : Option Word) (j : RegIdx) :
    (s.raiseFatal f w).getV j = s.getV j := rfl

/-! ## Storing bytes changes memory only; loading registers changes registers only -/

theorem State.putBytes_eq (a : Nat) (bs : List Byte) : s.putBytes a bs = { s with mem := (s.putBytes a bs).mem } := by
  induction bs generalizing s a with
  | nil => rfl
  | cons b bs ih => rw [State.putBytes, ih]; rfl

theorem State.loadV_eq (k : Nat) (bs : List Byte) : s.loadV k bs = { s with v := (s.loadV k bs).v } := by
  induction bs generalizing s k with
  | nil => rfl
  | cons b bs ih => rw [State.loadV, ih]; rfl

end Sys2Proof.Machine
end

