-- ==== Sys2Proof/Laws/Memory.lean ====
section
/-! SUPPORT. The memory operations: what a read gives after a write, that every operation keeps the canonical form, and that
the form is canonical. -/

namespace Sys2Proof.Machine

/-! ## One cell -/

theorem Memory.lookup_eq_none_of_lt {m : Memory} {a : Nat} (h : ∀ p ∈ m, a < p.1) : Memory.lookup m a = none := by
  induction m with
  | nil => rfl
  | cons p m ih =>
    obtain ⟨k, c⟩ := p
    have hk : a < k := h (k, c) (by simp)
    have : ¬ k = a := by omega
    simp [Memory.lookup, this, ih (fun q hq => h q (by simp [hq]))]

@[simp] theorem Memory.lookup_nil (a : Nat) : Memory.lookup [] a = none := rfl

theorem Memory.lookup_cons (k : Nat) (c : Byte) (m : Memory) (a : Nat) :
    Memory.lookup ((k, c) :: m) a = if a = k then some c else Memory.lookup m a := by
  simp only [Memory.lookup, eq_comm]

/-- What an address reads as after a `put`. -/
theorem Memory.lookup_put {bg : Byte} {m : Memory} {a : Nat} {b : Byte} (hm : m.Pairwise (fun p q => p.1 < q.1))
    (j : Nat) :
    Memory.lookup (Memory.put bg m a b) j =
      if j = a then (if b = bg then none else some b) else Memory.lookup m j := by
  induction m with
  | nil => by_cases hb : b = bg <;> simp [Memory.put, hb, Memory.lookup_cons]
  | cons p m ih =>
    obtain ⟨k, c⟩ := p
    have hp : ∀ q ∈ m, k < q.1 := by simpa using (List.pairwise_cons.1 hm).1
    have ih := ih (List.pairwise_cons.1 hm).2
    rcases lt_trichotomy a k with h | rfl | h
    · have hnone : Memory.lookup ((k, c) :: m) a = none := Memory.lookup_eq_none_of_lt (fun q hq => by
        rcases List.mem_cons.1 hq with rfl | hq
        · exact h
        · exact Nat.lt_trans h (hp q hq))
      rw [Memory.put, if_pos h]
      by_cases hb : b = bg
      · by_cases hj : j = a
        · rw [hj, if_pos hb, hnone, if_pos rfl, if_pos hb]
        · rw [if_pos hb, if_neg hj]
      · rw [if_neg hb, if_neg hb, Memory.lookup_cons a b]
    · have hnone : Memory.lookup m a = none := Memory.lookup_eq_none_of_lt hp
      rw [Memory.put, if_neg (Nat.lt_irrefl a), if_pos rfl]
      by_cases hb : b = bg <;> by_cases hj : j = a <;> simp [hb, hj, hnone, Memory.lookup_cons]
    · have hka : ¬ k = a := by omega
      rw [Memory.put, if_neg (by omega), if_neg (by omega), Memory.lookup_cons, ih, Memory.lookup_cons]
      by_cases hj : j = k
      · subst hj; simp [hka]
      · simp [hj]

theorem Memory.fst_of_mem_put {bg : Byte} {m : Memory} {a : Nat} {b : Byte} {p : Host.Cell}
    (h : p ∈ Memory.put bg m a b) : (p = (a, b) ∧ b ≠ bg) ∨ p ∈ m := by
  induction m with
  | nil =>
    by_cases hb : b = bg <;> simp_all [Memory.put]
  | cons q m ih =>
    obtain ⟨k, c⟩ := q
    simp only [Memory.put] at h
    split_ifs at h <;> simp only [List.mem_cons] at h ⊢ <;> tauto

theorem Memory.pairwise_put {bg : Byte} {m : Memory} {a : Nat} {b : Byte} (hm : m.Pairwise (fun p q => p.1 < q.1)) :
    (Memory.put bg m a b).Pairwise (fun p q => p.1 < q.1) := by
  induction m with
  | nil => by_cases hb : b = bg <;> simp [Memory.put, hb]
  | cons q m ih =>
    obtain ⟨k, c⟩ := q
    have hq : ∀ p ∈ m, k < p.1 := by simpa using (List.pairwise_cons.1 hm).1
    have hm' := (List.pairwise_cons.1 hm).2
    simp only [Memory.put]
    split_ifs with h1 h2 h3 h4
    · exact hm
    · refine List.pairwise_cons.2 ⟨fun p hp => ?_, hm⟩
      rcases List.mem_cons.1 hp with rfl | hp
      · exact h1
      · exact Nat.lt_trans h1 (hq p hp)
    · exact hm'
    · subst h3; exact List.pairwise_cons.2 ⟨hq, hm'⟩
    · refine List.pairwise_cons.2 ⟨fun p hp => ?_, ih hm'⟩
      rcases Memory.fst_of_mem_put hp with ⟨rfl, -⟩ | hp
      · show k < a; omega
      · exact hq p hp

/-- A `put` with the cell's own reset contents keeps the canonical form. -/
theorem Memory.put_wf {c : Config} {m : Memory} {a : Nat} {b : Byte} (hm : Memory.wf c m) (ha : a < memSize) :
    Memory.wf c (Memory.put (resetByte c a) m a b) := by
  refine ⟨Memory.pairwise_put hm.1, fun p hp => ?_⟩
  rcases Memory.fst_of_mem_put hp with ⟨rfl, hb⟩ | hp
  · exact ⟨ha, hb⟩
  · exact hm.2 p hp

theorem Memory.wf_nil (c : Config) : Memory.wf c [] := by simp [Memory.wf]

theorem Memory.lookup_of_mem {m : Memory} (hm : m.Pairwise (fun p q => p.1 < q.1)) {p : Host.Cell} (hp : p ∈ m) :
    Memory.lookup m p.1 = some p.2 := by
  induction m with
  | nil => simp at hp
  | cons q m ih =>
    obtain ⟨k, c⟩ := q
    have hq : ∀ p ∈ m, k < p.1 := by simpa using (List.pairwise_cons.1 hm).1
    rcases List.mem_cons.1 hp with rfl | hp
    · simp [Memory.lookup]
    · have : ¬ k = p.1 := by have := hq p hp; omega
      simp [Memory.lookup, this, ih (List.pairwise_cons.1 hm).2 hp]

theorem Memory.mem_of_lookup {m : Memory} {a : Nat} {b : Byte} (h : Memory.lookup m a = some b) : (a, b) ∈ m := by
  induction m with
  | nil => simp [Memory.lookup] at h
  | cons q m ih =>
    obtain ⟨k, c⟩ := q
    by_cases hk : k = a
    · simp [Memory.lookup, hk] at h; simp [hk, h]
    · simp [Memory.lookup, hk] at h; simp [ih h]

/-! ## The state's cells -/

/-- A byte read after a byte store (20_memory.md R42). -/
theorem State.byteAt_putByte {s : State} (hm : Memory.wf s.cfg s.mem) (a j : Nat) (b : Byte) :
    (s.putByte a b).byteAt j = if j = a then b else s.byteAt j := by
  simp only [State.byteAt, State.putByte_mem, State.putByte_cfg, Memory.lookup_put hm.1]
  by_cases hj : j = a
  · subst hj
    by_cases hb : b = resetByte s.cfg j <;> simp [hb]
  · simp [hj]

@[simp] theorem State.putBytes_cfg (s : State) (a : Nat) (bs : List Byte) : (s.putBytes a bs).cfg = s.cfg := by
  rw [State.putBytes_eq]

/-- Storing cells keeps the canonical form. -/
theorem State.putBytes_wf {s : State} (hm : Memory.wf s.cfg s.mem) (a : Nat) (bs : List Byte)
    (ha : a + bs.length ≤ memSize) : Memory.wf s.cfg (s.putBytes a bs).mem := by
  induction bs generalizing s a with
  | nil => exact hm
  | cons b bs ih =>
    simp only [List.length_cons] at ha
    exact ih (s := s.putByte a b) (Memory.put_wf hm (by omega)) (a + 1) (by omega)

/-- A byte read after a store of consecutive bytes: the stored byte inside the range, the old one outside. -/
theorem State.byteAt_putBytes {s : State} (hm : Memory.wf s.cfg s.mem) (a j : Nat) (bs : List Byte)
    (ha : a + bs.length ≤ memSize) :
    (s.putBytes a bs).byteAt j = if a ≤ j ∧ j < a + bs.length then bs.getD (j - a) 0 else s.byteAt j := by
  induction bs generalizing s a with
  | nil => have : ¬ (a ≤ j ∧ j < a) := by omega
           simp [State.putBytes, this]
  | cons b bs ih =>
    simp only [List.length_cons] at ha
    have hm' : Memory.wf (s.putByte a b).cfg (s.putByte a b).mem := Memory.put_wf hm (by omega)
    rw [State.putBytes, ih hm' (a + 1) (by omega), State.byteAt_putByte hm]
    by_cases h1 : j = a
    · subst h1; simp
    · by_cases h2 : a + 1 ≤ j ∧ j < a + 1 + bs.length
      · have h3 : a ≤ j ∧ j < a + (bs.length + 1) := by omega
        have h4 : j - a = (j - (a + 1)) + 1 := by omega
        rw [if_pos h2, List.length_cons, if_pos h3, h4, List.getD_cons_succ]
      · have h3 : ¬ (a ≤ j ∧ j < a + (bs.length + 1)) := by omega
        rw [if_neg h2, if_neg h1, List.length_cons, if_neg h3]

/-! ## Checked accesses -/

/-- The least out-of-range address of a range, in closed form. -/
theorem leastOutOfRange_eq (a n : Nat) :
    leastOutOfRange a n = if a + n ≤ memSize ∨ n = 0 then none else some (max a memSize) := by
  induction n generalizing a with
  | zero => simp [leastOutOfRange]
  | succ n ih =>
    simp only [leastOutOfRange, ih]
    split_ifs <;> simp_all <;> omega

/-- What reading consecutive bytes gives: all of them in range and as they are, or the least address out of range. -/
theorem State.memReads_eq (s : State) (a n : Nat) :
    s.memReads a n =
      match leastOutOfRange a n with
      | some bad => .error (.outOfRangeAddress bad)
      | none => .ok ((List.range n).map (fun k => s.byteAt (a + k))) := by
  induction n generalizing a with
  | zero => rfl
  | succ n ih =>
    by_cases h : a ≥ memSize
    · simp [State.memReads, State.memRead, leastOutOfRange, h]
    · simp only [State.memReads, State.memRead, leastOutOfRange, h, if_false, ih]
      cases leastOutOfRange (a + 1) n with
      | some bad => rfl
      | none =>
        simp [List.range_succ_eq_map, Function.comp_def, Nat.add_comm, Nat.add_left_comm]

theorem leastOutOfRange_none {a n : Nat} (h : a + n ≤ memSize) : leastOutOfRange a n = none := by
  simp [leastOutOfRange_eq, h]

/-- All that a checked write can do: the bytes are stored and the form is kept. -/
theorem State.memWrites_ok {s t : State} {a : Nat} {bytes : List Byte} (h : s.memWrites a bytes = .ok t) :
    t = s.putBytes a bytes ∧ (Memory.wf s.cfg s.mem → Memory.wf t.cfg t.mem) := by
  simp only [State.memWrites, leastOutOfRange_eq] at h
  split at h
  · cases h
  · rename_i hn
    cases h
    refine ⟨rfl, fun hm => ?_⟩
    rw [State.putBytes_cfg]
    by_cases hc : a + bytes.length ≤ memSize
    · exact State.putBytes_wf hm a bytes hc
    · have hz : bytes = [] := by
        by_contra hne
        have hl : ¬ bytes.length = 0 := fun e => hne (List.eq_nil_of_length_eq_zero e)
        rw [if_neg (fun o => o.elim hc hl)] at hn
        cases hn
      subst hz
      exact hm

/-- Memory right after a reset is canonical (70_reset_and_hazards.md R118). -/
theorem State.resetEvent_wf (s : State) : Memory.wf s.resetEvent.cfg s.resetEvent.mem := Memory.wf_nil _

end Sys2Proof.Machine
end

