-- ==== Sys2Proof/Laws/Exec.lean ====
section
/-! SUPPORT. What the operations that can raise answer, with their checks in closed form, and the laws of the register list and of
loading registers. -/

namespace Sys2Proof.Machine

/-! ## Registers in a row -/

theorem State.length_lowRegs (s : State) (x : RegIdx) : (s.lowRegs x).length = x.toNat + 1 := by
  have := x.isLt
  simp [State.lowRegs]
  omega

/-- The `j`-th of `V0 .. Vx` is `V[j]`. -/
theorem State.getD_lowRegs (s : State) {x j : RegIdx} (h : j ≤ x) : (s.lowRegs x).getD j.toNat 0 = s.getV j := by
  have h' : j.toNat < x.toNat + 1 := by have := BitVec.le_def.1 h; omega
  simp only [State.lowRegs, State.getV, List.getD_eq_getElem?_getD, List.getElem?_take, h', if_true, Vector.getElem?_toList]
  rw [Vector.getElem?_eq_getElem (show j.toNat < 16 from j.isLt)]
  rfl

/-- A register after loading registers from `k` on: the loaded byte inside the range, the old value outside. -/
theorem State.getV_loadV (s : State) (k : Nat) (bs : List Byte) (hk : k + bs.length ≤ 16) (j : RegIdx) :
    (s.loadV k bs).getV j =
      if k ≤ j.toNat ∧ j.toNat < k + bs.length then bs.getD (j.toNat - k) 0 else s.getV j := by
  induction bs generalizing s k with
  | nil => rw [if_neg (by simp)]; rfl
  | cons b bs ih =>
    simp only [List.length_cons] at hk
    rw [State.loadV, ih _ (k + 1) (by omega), State.getV_setV]
    have hkk : (BitVec.ofNat 4 k).toNat = k := by simp; omega
    by_cases h1 : j = BitVec.ofNat 4 k
    · have : j.toNat = k := by rw [h1, hkk]
      rw [if_neg (by omega), if_pos h1, if_pos (by simp [this]), this]
      simp
    · have h2 : j.toNat ≠ k := fun e => h1 (BitVec.eq_of_toNat_eq (by rw [e, hkk]))
      rw [if_neg h1]
      by_cases h3 : k + 1 ≤ j.toNat ∧ j.toNat < k + 1 + bs.length
      · rw [if_pos h3, if_pos (by simp; omega), show j.toNat - k = (j.toNat - (k + 1)) + 1 by omega,
          List.getD_cons_succ]
      · rw [if_neg h3, if_neg (by simp; omega)]

/-! ## The memory instructions -/

/-- Dxyn: the least sprite address out of range raises, else it draws. -/
theorem execDrw_eq (x y : RegIdx) (n : Nibble) (s : State) :
    execDrw x y n s =
      match leastOutOfRange s.iReg.toNat n.toNat with
      | some bad => raiseIn (.drw x y n) (.outOfRangeAddress bad) s
      | none => .next (s.draw x y ((List.range n.toNat).map fun r => s.byteAt (s.iReg.toNat + r))) := by
  rw [execDrw, State.memReads_eq, State.effectiveAddr_zero]
  cases leastOutOfRange s.iReg.toNat n.toNat <;> rfl

/-- Fx33. -/
theorem execLdBVx_eq (x : RegIdx) (s : State) :
    execLdBVx x s =
      match leastOutOfRange s.iReg.toNat 3 with
      | some bad => raiseIn (.ldBVx x) (.outOfRangeAddress bad) s
      | none => .next (s.putBytes s.iReg.toNat (bcdDigits (s.getV x))).advance := by
  rw [execLdBVx, State.memWrites, State.effectiveAddr_zero, show (bcdDigits (s.getV x)).length = 3 from rfl]
  cases leastOutOfRange s.iReg.toNat 3 <;> rfl

/-- Fx55. -/
theorem execLdMemVx_eq (x : RegIdx) (s : State) :
    execLdMemVx x s =
      match leastOutOfRange s.iReg.toNat (x.toNat + 1) with
      | some bad => raiseIn (.ldMemVx x) (.outOfRangeAddress bad) s
      | none => .next ((s.putBytes s.iReg.toNat (s.lowRegs x)).addI (x.toNat + 1)).advance := by
  rw [execLdMemVx, State.memWrites, State.effectiveAddr_zero, State.length_lowRegs]
  cases leastOutOfRange s.iReg.toNat (x.toNat + 1) <;> rfl

/-- Fx65. -/
theorem execLdVxMem_eq (x : RegIdx) (s : State) :
    execLdVxMem x s =
      match leastOutOfRange s.iReg.toNat (x.toNat + 1) with
      | some bad => raiseIn (.ldVxMem x) (.outOfRangeAddress bad) s
      | none => .next ((s.loadV 0 ((List.range (x.toNat + 1)).map fun k => s.byteAt (s.iReg.toNat + k))).addI
          (x.toNat + 1)).advance := by
  rw [execLdVxMem, State.memReads_eq, State.effectiveAddr_zero]
  cases leastOutOfRange s.iReg.toNat (x.toNat + 1) <;> rfl

/-- The address a range access through I reports is the first of it that is out of range, and it fits 16 bits. -/
theorem addr_of_leastOutOfRange {s : State} {n bad : Nat} (h : leastOutOfRange s.iReg.toNat n = some bad) :
    trunc16 bad = if s.iReg.toNat ≥ 4096 then s.iReg else 0x1000 := by
  rw [leastOutOfRange_eq] at h
  split_ifs at h with hc
  simp only [memSize, Option.some.injEq] at h
  subst h
  split_ifs with hi
  · rw [max_eq_left hi]; simp [trunc16]
  · rw [max_eq_right (by omega)]; rfl

/-! ## What each event leaves alone, whatever instruction runs -/

@[simp] theorem State.putBytes_getV (s : State) (a : Nat) (bs : List Byte) (j : RegIdx) :
    (s.putBytes a bs).getV j = s.getV j := by
  rw [State.putBytes_eq]; rfl

@[simp] theorem State.keyPoll_mem (s : State) : s.keyPoll.mem = s.mem := by
  unfold State.keyPoll; cases s.leastPressed <;> rfl

/-- A poll finds a key exactly when one is pressed, and then the least (45_timers_input.md R99). -/
theorem State.leastPressed_eq_some {s : State} {k : Nat} :
    s.leastPressed = some k ↔
      ∃ h : k < 16, s.keys[k] = true ∧ ∀ (j : Nat) (hj : j < k), s.keys[j] = false := by
  simp [State.leastPressed, List.findIdx?_eq_some_iff_getElem]

theorem State.leastPressed_eq_none {s : State} :
    s.leastPressed = none ↔ ∀ k : Fin 16, s.keys[k] = false := by
  simp only [State.leastPressed, List.findIdx?_eq_none_iff, id]
  constructor
  · intro h k
    exact h _ (by simp)
  · intro h b hb
    obtain ⟨k, hk, rfl⟩ := List.getElem_of_mem hb
    have hk' : k < 16 := by simpa using hk
    exact h ⟨k, hk'⟩

end Sys2Proof.Machine
end

