-- ==== Sys2Proof/Laws/PerInstr.lean ====
section
/-! SUPPORT. The statements that are made per instruction, and one lemma per constructor for each. -/

namespace Sys2Proof.Laws

/-! ## A format under the mask of its rows -/

theorem and_ones4 (a : Nibble) : a &&& 0xF#4 = a := BitVec.and_allOnes
theorem and_ones8 (b : Byte) : b &&& 0xFF#8 = b := BitVec.and_allOnes

theorem mask_fmtNNN (op : Nibble) (addr : Addr) : fmtNNN op addr &&& (0xF#4 ++ 0x000#12) = op ++ 0x000#12 := by
  rw [fmtNNN, BitVec.and_append]; simp [and_ones4]
theorem mask_fmtXKK (op : Nibble) (x : RegIdx) (kk : Byte) :
    fmtXKK op x kk &&& (0xF#4 ++ 0x0#4 ++ 0x00#8) = op ++ 0x0#4 ++ 0x00#8 := by
  show (op ++ x ++ kk) &&& (0xF#4 ++ 0x0#4 ++ 0x00#8) = _
  rw [BitVec.and_append, BitVec.and_append]; simp [and_ones4]
theorem mask_fmtX (op : Nibble) (x : RegIdx) (sub : Byte) :
    fmtX op x sub &&& (0xF#4 ++ 0x0#4 ++ 0xFF#8) = op ++ 0x0#4 ++ sub := by
  show (op ++ x ++ sub) &&& (0xF#4 ++ 0x0#4 ++ 0xFF#8) = _
  rw [BitVec.and_append, BitVec.and_append]; simp [and_ones4, and_ones8]
theorem mask_fmtXYN (op : Nibble) (x y : RegIdx) (n : Nibble) :
    fmtXYN op x y n &&& (0xF#4 ++ 0x0#4 ++ 0x0#4 ++ 0xF#4) = op ++ 0x0#4 ++ 0x0#4 ++ n := by
  show (op ++ x ++ y ++ n) &&& (0xF#4 ++ 0x0#4 ++ 0x0#4 ++ 0xF#4) = (_ : BitVec (4 + 4 + 4 + 4))
  rw [BitVec.and_append, BitVec.and_append, BitVec.and_append]; simp [and_ones4]
theorem mask_fmtXYN_op (op : Nibble) (x y : RegIdx) (n : Nibble) :
    fmtXYN op x y n &&& (0xF#4 ++ 0x0#4 ++ 0x0#4 ++ 0x0#4) = op ++ 0x0#4 ++ 0x0#4 ++ 0x0#4 := by
  show (op ++ x ++ y ++ n) &&& (0xF#4 ++ 0x0#4 ++ 0x0#4 ++ 0x0#4) = (_ : BitVec (4 + 4 + 4 + 4))
  rw [BitVec.and_append, BitVec.and_append, BitVec.and_append]; simp [and_ones4]

/-! ## The encoding of every instruction has the fixed bits of its own row of the opcode table -/

/-- The row of spec/opcode_table.json an instruction belongs to: its mask and its match. -/
def EncodingHasItsRow.row : Instr → Word × Word
  | .cls => (0xFFFF, 0x00E0)
  | .ret => (0xFFFF, 0x00EE)
  | .sys _ => (0xF000, 0x0000)
  | .jp _ => (0xF000, 0x1000)
  | .call _ => (0xF000, 0x2000)
  | .seVxKk _ _ => (0xF000, 0x3000)
  | .sneVxKk _ _ => (0xF000, 0x4000)
  | .seVxVy _ _ => (0xF00F, 0x5000)
  | .ldVxKk _ _ => (0xF000, 0x6000)
  | .addVxKk _ _ => (0xF000, 0x7000)
  | .ldVxVy _ _ => (0xF00F, 0x8000)
  | .orVxVy _ _ => (0xF00F, 0x8001)
  | .andVxVy _ _ => (0xF00F, 0x8002)
  | .xorVxVy _ _ => (0xF00F, 0x8003)
  | .addVxVy _ _ => (0xF00F, 0x8004)
  | .sub _ _ => (0xF00F, 0x8005)
  | .shr _ _ => (0xF00F, 0x8006)
  | .subn _ _ => (0xF00F, 0x8007)
  | .shl _ _ => (0xF00F, 0x800E)
  | .sneVxVy _ _ => (0xF00F, 0x9000)
  | .ldI _ => (0xF000, 0xA000)
  | .jpV0 _ => (0xF000, 0xB000)
  | .rnd _ _ => (0xF000, 0xC000)
  | .drw _ _ _ => (0xF000, 0xD000)
  | .skp _ => (0xF0FF, 0xE09E)
  | .sknp _ => (0xF0FF, 0xE0A1)
  | .ldVxDt _ => (0xF0FF, 0xF007)
  | .ldVxK _ => (0xF0FF, 0xF00A)
  | .ldDtVx _ => (0xF0FF, 0xF015)
  | .ldStVx _ => (0xF0FF, 0xF018)
  | .addIVx _ => (0xF0FF, 0xF01E)
  | .ldFVx _ => (0xF0FF, 0xF029)
  | .ldBVx _ => (0xF0FF, 0xF033)
  | .ldMemVx _ => (0xF0FF, 0xF055)
  | .ldVxMem _ => (0xF0FF, 0xF065)

/-- The row is one of the table's, and the word has its fixed bits (30_encoding.md R50). -/
def EncodingHasItsRow.Statement (i : Instr) : Prop :=
  EncodingHasItsRow.row i ∈ tableRows ∧
    encode i &&& (EncodingHasItsRow.row i).1 = (EncodingHasItsRow.row i).2

theorem EncodingHasItsRow.cls : EncodingHasItsRow.Statement .cls :=
  ⟨(by decide : ((0xFFFF, 0x00E0) : Word × Word) ∈ tableRows), by decide⟩
theorem EncodingHasItsRow.ret : EncodingHasItsRow.Statement .ret :=
  ⟨(by decide : ((0xFFFF, 0x00EE) : Word × Word) ∈ tableRows), by decide⟩
theorem EncodingHasItsRow.sys (addr : Addr) : EncodingHasItsRow.Statement (.sys addr) :=
  ⟨(by decide : ((0xF000, 0x0000) : Word × Word) ∈ tableRows), mask_fmtNNN 0x0#4 addr⟩
theorem EncodingHasItsRow.jp (addr : Addr) : EncodingHasItsRow.Statement (.jp addr) :=
  ⟨(by decide : ((0xF000, 0x1000) : Word × Word) ∈ tableRows), mask_fmtNNN 0x1#4 addr⟩
theorem EncodingHasItsRow.call (addr : Addr) : EncodingHasItsRow.Statement (.call addr) :=
  ⟨(by decide : ((0xF000, 0x2000) : Word × Word) ∈ tableRows), mask_fmtNNN 0x2#4 addr⟩
theorem EncodingHasItsRow.seVxKk (x : RegIdx) (kk : Byte) : EncodingHasItsRow.Statement (.seVxKk x kk) :=
  ⟨(by decide : ((0xF000, 0x3000) : Word × Word) ∈ tableRows), mask_fmtXKK 0x3#4 x kk⟩
theorem EncodingHasItsRow.sneVxKk (x : RegIdx) (kk : Byte) : EncodingHasItsRow.Statement (.sneVxKk x kk) :=
  ⟨(by decide : ((0xF000, 0x4000) : Word × Word) ∈ tableRows), mask_fmtXKK 0x4#4 x kk⟩
theorem EncodingHasItsRow.seVxVy (x y : RegIdx) : EncodingHasItsRow.Statement (.seVxVy x y) :=
  ⟨(by decide : ((0xF00F, 0x5000) : Word × Word) ∈ tableRows), mask_fmtXYN 0x5#4 x y 0x0#4⟩
theorem EncodingHasItsRow.ldVxKk (x : RegIdx) (kk : Byte) : EncodingHasItsRow.Statement (.ldVxKk x kk) :=
  ⟨(by decide : ((0xF000, 0x6000) : Word × Word) ∈ tableRows), mask_fmtXKK 0x6#4 x kk⟩
theorem EncodingHasItsRow.addVxKk (x : RegIdx) (kk : Byte) : EncodingHasItsRow.Statement (.addVxKk x kk) :=
  ⟨(by decide : ((0xF000, 0x7000) : Word × Word) ∈ tableRows), mask_fmtXKK 0x7#4 x kk⟩
theorem EncodingHasItsRow.ldVxVy (x y : RegIdx) : EncodingHasItsRow.Statement (.ldVxVy x y) :=
  ⟨(by decide : ((0xF00F, 0x8000) : Word × Word) ∈ tableRows), mask_fmtXYN 0x8#4 x y 0x0#4⟩
theorem EncodingHasItsRow.orVxVy (x y : RegIdx) : EncodingHasItsRow.Statement (.orVxVy x y) :=
  ⟨(by decide : ((0xF00F, 0x8001) : Word × Word) ∈ tableRows), mask_fmtXYN 0x8#4 x y 0x1#4⟩
theorem EncodingHasItsRow.andVxVy (x y : RegIdx) : EncodingHasItsRow.Statement (.andVxVy x y) :=
  ⟨(by decide : ((0xF00F, 0x8002) : Word × Word) ∈ tableRows), mask_fmtXYN 0x8#4 x y 0x2#4⟩
theorem EncodingHasItsRow.xorVxVy (x y : RegIdx) : EncodingHasItsRow.Statement (.xorVxVy x y) :=
  ⟨(by decide : ((0xF00F, 0x8003) : Word × Word) ∈ tableRows), mask_fmtXYN 0x8#4 x y 0x3#4⟩
theorem EncodingHasItsRow.addVxVy (x y : RegIdx) : EncodingHasItsRow.Statement (.addVxVy x y) :=
  ⟨(by decide : ((0xF00F, 0x8004) : Word × Word) ∈ tableRows), mask_fmtXYN 0x8#4 x y 0x4#4⟩
theorem EncodingHasItsRow.sub (x y : RegIdx) : EncodingHasItsRow.Statement (.sub x y) :=
  ⟨(by decide : ((0xF00F, 0x8005) : Word × Word) ∈ tableRows), mask_fmtXYN 0x8#4 x y 0x5#4⟩
theorem EncodingHasItsRow.shr (x y : RegIdx) : EncodingHasItsRow.Statement (.shr x y) :=
  ⟨(by decide : ((0xF00F, 0x8006) : Word × Word) ∈ tableRows), mask_fmtXYN 0x8#4 x y 0x6#4⟩
theorem EncodingHasItsRow.subn (x y : RegIdx) : EncodingHasItsRow.Statement (.subn x y) :=
  ⟨(by decide : ((0xF00F, 0x8007) : Word × Word) ∈ tableRows), mask_fmtXYN 0x8#4 x y 0x7#4⟩
theorem EncodingHasItsRow.shl (x y : RegIdx) : EncodingHasItsRow.Statement (.shl x y) :=
  ⟨(by decide : ((0xF00F, 0x800E) : Word × Word) ∈ tableRows), mask_fmtXYN 0x8#4 x y 0xE#4⟩
theorem EncodingHasItsRow.sneVxVy (x y : RegIdx) : EncodingHasItsRow.Statement (.sneVxVy x y) :=
  ⟨(by decide : ((0xF00F, 0x9000) : Word × Word) ∈ tableRows), mask_fmtXYN 0x9#4 x y 0x0#4⟩
theorem EncodingHasItsRow.ldI (addr : Addr) : EncodingHasItsRow.Statement (.ldI addr) :=
  ⟨(by decide : ((0xF000, 0xA000) : Word × Word) ∈ tableRows), mask_fmtNNN 0xA#4 addr⟩
theorem EncodingHasItsRow.jpV0 (addr : Addr) : EncodingHasItsRow.Statement (.jpV0 addr) :=
  ⟨(by decide : ((0xF000, 0xB000) : Word × Word) ∈ tableRows), mask_fmtNNN 0xB#4 addr⟩
theorem EncodingHasItsRow.rnd (x : RegIdx) (kk : Byte) : EncodingHasItsRow.Statement (.rnd x kk) :=
  ⟨(by decide : ((0xF000, 0xC000) : Word × Word) ∈ tableRows), mask_fmtXKK 0xC#4 x kk⟩
theorem EncodingHasItsRow.drw (x y : RegIdx) (n : Nibble) : EncodingHasItsRow.Statement (.drw x y n) :=
  ⟨(by decide : ((0xF000, 0xD000) : Word × Word) ∈ tableRows), mask_fmtXYN_op 0xD#4 x y n⟩
theorem EncodingHasItsRow.skp (x : RegIdx) : EncodingHasItsRow.Statement (.skp x) :=
  ⟨(by decide : ((0xF0FF, 0xE09E) : Word × Word) ∈ tableRows), mask_fmtX 0xE#4 x 0x9E#8⟩
theorem EncodingHasItsRow.sknp (x : RegIdx) : EncodingHasItsRow.Statement (.sknp x) :=
  ⟨(by decide : ((0xF0FF, 0xE0A1) : Word × Word) ∈ tableRows), mask_fmtX 0xE#4 x 0xA1#8⟩
theorem EncodingHasItsRow.ldVxDt (x : RegIdx) : EncodingHasItsRow.Statement (.ldVxDt x) :=
  ⟨(by decide : ((0xF0FF, 0xF007) : Word × Word) ∈ tableRows), mask_fmtX 0xF#4 x 0x07#8⟩
theorem EncodingHasItsRow.ldVxK (x : RegIdx) : EncodingHasItsRow.Statement (.ldVxK x) :=
  ⟨(by decide : ((0xF0FF, 0xF00A) : Word × Word) ∈ tableRows), mask_fmtX 0xF#4 x 0x0A#8⟩
theorem EncodingHasItsRow.ldDtVx (x : RegIdx) : EncodingHasItsRow.Statement (.ldDtVx x) :=
  ⟨(by decide : ((0xF0FF, 0xF015) : Word × Word) ∈ tableRows), mask_fmtX 0xF#4 x 0x15#8⟩
theorem EncodingHasItsRow.ldStVx (x : RegIdx) : EncodingHasItsRow.Statement (.ldStVx x) :=
  ⟨(by decide : ((0xF0FF, 0xF018) : Word × Word) ∈ tableRows), mask_fmtX 0xF#4 x 0x18#8⟩
theorem EncodingHasItsRow.addIVx (x : RegIdx) : EncodingHasItsRow.Statement (.addIVx x) :=
  ⟨(by decide : ((0xF0FF, 0xF01E) : Word × Word) ∈ tableRows), mask_fmtX 0xF#4 x 0x1E#8⟩
theorem EncodingHasItsRow.ldFVx (x : RegIdx) : EncodingHasItsRow.Statement (.ldFVx x) :=
  ⟨(by decide : ((0xF0FF, 0xF029) : Word × Word) ∈ tableRows), mask_fmtX 0xF#4 x 0x29#8⟩
theorem EncodingHasItsRow.ldBVx (x : RegIdx) : EncodingHasItsRow.Statement (.ldBVx x) :=
  ⟨(by decide : ((0xF0FF, 0xF033) : Word × Word) ∈ tableRows), mask_fmtX 0xF#4 x 0x33#8⟩
theorem EncodingHasItsRow.ldMemVx (x : RegIdx) : EncodingHasItsRow.Statement (.ldMemVx x) :=
  ⟨(by decide : ((0xF0FF, 0xF055) : Word × Word) ∈ tableRows), mask_fmtX 0xF#4 x 0x55#8⟩
theorem EncodingHasItsRow.ldVxMem (x : RegIdx) : EncodingHasItsRow.Statement (.ldVxMem x) :=
  ⟨(by decide : ((0xF0FF, 0xF065) : Word × Word) ∈ tableRows), mask_fmtX 0xF#4 x 0x65#8⟩

end Sys2Proof.Laws
end

