-- ==== Sys2Proof/Laws/Step.lean ====
section
/-! SUPPORT. What an instruction can do to the mode and the fault record, said once; and the event of a step, case by case. -/

namespace Sys2Proof.Machine

/-! ## Outcomes -/

theorem next_inj {a b : State} (h : (Host.Outcome.next a : Outcome) = .next b) : a = b := by injection h

@[simp] theorem endOutcome_next (s : State) : endOutcome (.next s) = .next s.endEvent := rfl

theorem endOutcome_eq_next {o : Outcome} {t : State} (h : endOutcome o = .next t) :
    ∃ u, o = .next u ∧ t = u.endEvent := by
  cases o with
  | next u => exact ⟨u, rfl, (next_inj h).symm⟩
  | fault r => cases h
  | refused r => cases h

/-! ## Loads and stores touch one field -/

@[simp] theorem State.putBytes_mode (s : State) (a : Nat) (bs : List Byte) : (s.putBytes a bs).mode = s.mode := by
  rw [State.putBytes_eq]
@[simp] theorem State.putBytes_fault (s : State) (a : Nat) (bs : List Byte) : (s.putBytes a bs).fault = s.fault := by
  rw [State.putBytes_eq]
@[simp] theorem State.loadV_mode (s : State) (k : Nat) (bs : List Byte) : (s.loadV k bs).mode = s.mode := by
  rw [State.loadV_eq]
@[simp] theorem State.loadV_fault (s : State) (k : Nat) (bs : List Byte) : (s.loadV k bs).fault = s.fault := by
  rw [State.loadV_eq]

theorem leastOutOfRange_isSome {a n : Nat} : (∃ b, leastOutOfRange a n = some b) ↔ n ≠ 0 ∧ 4096 < a + n := by
  have h := leastOutOfRange_eq a n
  by_cases hc : a + n ≤ memSize ∨ n = 0
  · rw [if_pos hc] at h
    rw [h]
    simp only [memSize] at hc
    exact ⟨fun h => (by obtain ⟨b, e⟩ := h; cases e), fun e => by omega⟩
  · rw [if_neg hc] at h
    rw [h]
    simp only [memSize] at hc
    exact ⟨fun _ => by omega, fun _ => ⟨_, rfl⟩⟩

/-! ## Instructions -/

/-- Every next state of `exec`: a fatal condition raised (60_exceptions.md R103), or the record as before and the mode as
before or, by Fx0A, AwaitingKey. -/
inductive Executed (i : Instr) (s t : State) : Prop where
  | raised (f : FatalCondition) (h : t = s.raiseFatal f (some (encode i)))
  | plain (mode : t.mode = s.mode ∨ ∃ x, i = .ldVxK x ∧ t.mode = .awaitingKey) (fault : t.fault = s.fault)

theorem exec_cases {i : Instr} {s t : State} (h : exec i s = .next t) : Executed i s t := by
  cases i with
  | ret =>
    simp only [exec, execRet] at h
    split_ifs at h
    · exact .raised _ (next_inj h).symm
    · rw [← next_inj h]; exact .plain (.inl rfl) rfl
  | call a =>
    simp only [exec, execCall] at h
    split_ifs at h
    · exact .raised _ (next_inj h).symm
    · rw [← next_inj h]; exact .plain (.inl rfl) rfl
  | skp x =>
    simp only [exec, execSkp] at h
    split_ifs at h
    · rw [← next_inj h]; exact .plain (.inl rfl) rfl
    · exact .raised _ (next_inj h).symm
  | sknp x =>
    simp only [exec, execSknp] at h
    split_ifs at h
    · rw [← next_inj h]; exact .plain (.inl rfl) rfl
    · exact .raised _ (next_inj h).symm
  | ldFVx x =>
    simp only [exec, execLdFVx] at h
    split_ifs at h
    · exact .raised _ (next_inj h).symm
    · rw [← next_inj h]; exact .plain (.inl rfl) rfl
  | drw x y n =>
    simp only [exec, execDrw_eq] at h
    split at h
    · exact .raised _ (next_inj h).symm
    · rw [← next_inj h]; exact .plain (.inl rfl) rfl
  | ldBVx x =>
    simp only [exec, execLdBVx_eq] at h
    split at h
    · exact .raised _ (next_inj h).symm
    · rw [← next_inj h]; exact .plain (.inl (State.putBytes_mode ..)) (State.putBytes_fault ..)
  | ldMemVx x =>
    simp only [exec, execLdMemVx_eq] at h
    split at h
    · exact .raised _ (next_inj h).symm
    · rw [← next_inj h]; exact .plain (.inl (State.putBytes_mode ..)) (State.putBytes_fault ..)
  | ldVxMem x =>
    simp only [exec, execLdVxMem_eq] at h
    split at h
    · exact .raised _ (next_inj h).symm
    · rw [← next_inj h]; exact .plain (.inl (State.loadV_mode ..)) (State.loadV_fault ..)
  | ldVxK x => rw [← next_inj h]; exact .plain (.inr ⟨x, rfl, rfl⟩) rfl
  | _ => rw [← next_inj h]; exact .plain (.inl rfl) rfl

/-! ## The fetch -/

/-- Both bytes are cells: the word of 20_memory.md R39. -/
theorem State.fetch_eq_ok {s : State} (h : s.CanFetch) : s.fetch = .ok s.wordAtPc := by
  have h1 : s.pc.toNat + 1 < memSize := h
  simp only [State.fetch, State.memRead, ge_iff_le, if_neg (show ¬ memSize ≤ s.pc.toNat by omega),
    if_neg (show ¬ memSize ≤ s.pc.toNat + 1 by omega)]
  rfl

/-- Else the first of them that is no cell (30_encoding.md R54). -/
theorem State.fetch_eq_error {s : State} (h : ¬ s.CanFetch) :
    s.fetch = .error (.outOfRangeAddress (max s.pc.toNat memSize)) := by
  have h1 : memSize ≤ s.pc.toNat + 1 := Nat.not_lt.1 h
  by_cases h2 : memSize ≤ s.pc.toNat
  · simp only [State.fetch, State.memRead, ge_iff_le, if_pos h2, Nat.max_eq_left h2]
  · simp only [State.fetch, State.memRead, ge_iff_le, if_neg h2, if_pos h1]
    rw [show s.pc.toNat + 1 = max s.pc.toNat memSize by omega]

/-- What the decoder refuses it refuses under the word's own name (30_encoding.md R51). -/
theorem decodeWord_error {w : Word} {e : DecodeError} (h : decodeWord w = .error e) : e = .unrecognized w := by
  unfold decodeWord decode8 decodeE decodeF at h
  repeat' split at h
  all_goals first | (injection h with h; exact h.symm) | (cases h)

/-! ## Steps -/

theorem step_of_nextEvent {s : State} {e : Event} (h : s.nextEvent = e) :
    step s = deliver e { s with schedule := s.schedule.tail } := by rw [← h]; rfl

/-- An `InstrEvent` runs its body in `atInstr`, then the audio trigger is set (10_state.md R28). -/
theorem step_instr {s : State} (h : s.InstrNext) : step s = endOutcome s.atInstr.instrBody := step_of_nextEvent h

theorem State.atInstr_instrBody_running {s : State} (h : s.mode = .running) :
    s.atInstr.instrBody = s.atInstr.runInstr := by
  have : s.atInstr.mode = .running := h
  simp [State.instrBody, this]

theorem State.atInstr_fetch (s : State) : s.atInstr.fetch = s.fetch := rfl

/-- How a step in mode Running whose event is an `InstrEvent` ends. -/
theorem step_running {s : State} (h : s.InstrNext) (hm : s.mode = .running) (hf : s.CanFetch) {i : Instr}
    (hd : decodeWord s.wordAtPc = .ok i) : step s = endOutcome (exec i s.atInstr) := by
  rw [step_instr h, State.atInstr_instrBody_running hm, State.runInstr, State.atInstr_fetch, State.fetch_eq_ok hf]
  simp only [hd]

/-- The cases of a step that goes on. -/
inductive Stepped (s t : State) : Prop where
  | idle (ev : s.nextEvent = .instr) (mode : s.mode = .halted) (h : t = s.atInstr.endEvent)
  | polled (ev : s.nextEvent = .instr) (mode : s.mode = .awaitingKey) (h : t = s.atInstr.keyPoll.endEvent)
  | fetchFailed (ev : s.nextEvent = .instr) (mode : s.mode = .running) (fetch : ¬ s.CanFetch)
      (h : t = (s.atInstr.raiseFatal (.outOfRangeAddress (max s.pc.toNat memSize)) none).endEvent)
  | unrecognized (ev : s.nextEvent = .instr) (mode : s.mode = .running) (fetch : s.CanFetch)
      (dec : decodeWord s.wordAtPc = .error (.unrecognized s.wordAtPc))
      (h : t = (s.atInstr.unrecognized s.wordAtPc).endEvent)
  | executed (i : Instr) (u : State) (ev : s.nextEvent = .instr) (mode : s.mode = .running) (fetch : s.CanFetch)
      (dec : decodeWord s.wordAtPc = .ok i) (ex : exec i s.atInstr = .next u) (h : t = u.endEvent)
  | timer (ev : s.nextEvent = .timer)
      (h : t = ({ s with schedule := s.schedule.tail }.beginEvent.timerBody).endEvent)
  | keys (k : BitVec 16) (ev : s.nextEvent = .keys k)
      (h : t = ({ s with schedule := s.schedule.tail }.beginEvent.keysBody k).endEvent)
  | reset (ev : s.nextEvent = .reset) (h : t = ({ s with schedule := s.schedule.tail }.resetEvent).endEvent)
  | loaded (bytes : List Byte) (ev : s.nextEvent = .load bytes) (window : s.loadWindow = true)
      (fits : progBase + bytes.length ≤ memSize)
      (h : t = ({ s with schedule := s.schedule.tail }.beginEvent.putBytes progBase bytes).endEvent)
  | tooLarge (bytes : List Byte) (ev : s.nextEvent = .load bytes) (window : s.loadWindow = true)
      (big : memSize < progBase + bytes.length)
      (h : t = { { s with schedule := s.schedule.tail }.beginEvent with loadTooLarge := true }.endEvent)

/-- Everything a step can do. -/
theorem step_cases {s t : State} (h : step s = .next t) : Stepped s t := by
  cases he : s.nextEvent with
  | instr =>
    rw [step_instr he] at h
    obtain ⟨u, hu, rfl⟩ := endOutcome_eq_next h
    cases hm : s.mode with
    | halted =>
      have hm' : s.atInstr.mode = .halted := hm
      simp only [State.instrBody, hm'] at hu
      exact .idle he hm (by rw [← next_inj hu])
    | awaitingKey =>
      have hm' : s.atInstr.mode = .awaitingKey := hm
      simp only [State.instrBody, hm'] at hu
      exact .polled he hm (by rw [← next_inj hu])
    | running =>
      rw [State.atInstr_instrBody_running hm, State.runInstr, State.atInstr_fetch] at hu
      by_cases hf : s.CanFetch
      · rw [State.fetch_eq_ok hf] at hu
        simp only at hu
        split at hu
        · rename_i e hd
          cases decodeWord_error hd
          exact .unrecognized he hm hf hd (by rw [← next_inj hu])
        · rename_i i hd
          exact .executed i u he hm hf hd hu rfl
      · rw [State.fetch_eq_error hf] at hu
        exact .fetchFailed he hm hf (by rw [← next_inj hu])
  | timer => rw [step_of_nextEvent he] at h; exact .timer he (next_inj h).symm
  | keys k => rw [step_of_nextEvent he] at h; exact .keys k he (next_inj h).symm
  | reset => rw [step_of_nextEvent he] at h; exact .reset he (next_inj h).symm
  | load bytes =>
    rw [step_of_nextEvent he] at h
    obtain ⟨u, hu, rfl⟩ := endOutcome_eq_next h
    simp only [State.loadBody] at hu
    split_ifs at hu with hw hb
    · exact .tooLarge bytes he hw hb (by rw [← next_inj hu])
    · exact .loaded bytes he hw (Nat.not_lt.1 hb) (by rw [← next_inj hu])

end Sys2Proof.Machine
end

