-- ==== Sys2Proof/Tests/Slice0.lean ====
section
/-! SUPPORT. Tests: the WellFormed smoke, words written out from the encodings of 30_encoding.md R50, one step of each
instruction with the values of 95_test_vectors.md (the vector's id stands before each), and for every obligation with
hypotheses a state and operands that meet them. -/

namespace Sys2Proof.Tests

open Sys2Proof.Machine

/-- The next state of an outcome, if it is one. -/
def after : Outcome → Option State
  | .next s => some s
  | .fault _ => none
  | .refused _ => none

/-- The reset state with some registers set. -/
def regs (l : List (RegIdx × Byte)) : State := l.foldl (fun s p => s.setV p.1 p.2) State.reset

/-- Those registers and I. -/
def regsI (i : Word) (l : List (RegIdx × Byte)) : State := (regs l).setI i

/-- One step of `s` with the word `w` at PC. -/
def run (w : Nat) (s : State) : Option State := after (step (s.withFetchWord 16 w))

/-- A halted outcome: code, fault_pc, fault_instr, fault_instr_valid, fault_addr, and PC. -/
def halt (w : Nat) (s : State) : Option (Mode × FaultRecord × Word) := (run w s).map fun t => (t.mode, t.fault, t.pc)

/-- `s` with an event delivered next. -/
def before (e : Event) (s : State) : State := { s with schedule := [e] }

/-! ## WellFormed: the one check (R50) -/

theorem test_wf_sys_0E0 : ¬ (Instr.sys 0x0E0).WellFormed := by decide
theorem test_wf_sys_0EE : ¬ (Instr.sys 0x0EE).WellFormed := by decide
theorem test_wf_sys_neighbours :
    (Instr.sys 0x0E1).WellFormed ∧ (Instr.sys 0x0ED).WellFormed ∧ (Instr.sys 0x1E0).WellFormed := by decide

/-! ## Decoding: words written out bit by bit, `encoding` of spec/opcode_table.json with the fields put in -/

theorem test_decode_family0 :
    decodeWord 0b0000000011100000 = .ok .cls ∧ decodeWord 0b0000000011101110 = .ok .ret ∧
    decodeWord 0b0000000111101110 = .ok (.sys 0x1EE) := by decide
theorem test_decode_addr :
    decodeWord 0b0001001000001000 = .ok (.jp 0x208) ∧ decodeWord 0b0010111111111111 = .ok (.call 0xFFF) ∧
    decodeWord 0b1010010000000001 = .ok (.ldI 0x401) ∧ decodeWord 0b1011001100000100 = .ok (.jpV0 0x304) := by decide
theorem test_decode_xkk :
    decodeWord 0b0011001100010000 = .ok (.seVxKk 0x3 0x10) ∧ decodeWord 0b0100110010100101 = .ok (.sneVxKk 0xC 0xA5) ∧
    decodeWord 0b0110101001000010 = .ok (.ldVxKk 0xA 0x42) ∧ decodeWord 0b0111111100000001 = .ok (.addVxKk 0xF 0x01) ∧
    decodeWord 0b1100000010001111 = .ok (.rnd 0x0 0x8F) := by decide
theorem test_decode_xy :
    decodeWord 0b0101000100100000 = .ok (.seVxVy 1 2) ∧ decodeWord 0b1001000100100000 = .ok (.sneVxVy 1 2) := by decide
theorem test_decode_8 :
    decodeWord 0b1000000111100000 = .ok (.ldVxVy 1 0xE) ∧ decodeWord 0b1000000111100001 = .ok (.orVxVy 1 0xE) ∧
    decodeWord 0b1000000111100010 = .ok (.andVxVy 1 0xE) ∧ decodeWord 0b1000000111100011 = .ok (.xorVxVy 1 0xE) ∧
    decodeWord 0b1000000111100100 = .ok (.addVxVy 1 0xE) ∧ decodeWord 0b1000000111100101 = .ok (.sub 1 0xE) ∧
    decodeWord 0b1000000111100110 = .ok (.shr 1 0xE) ∧ decodeWord 0b1000000111100111 = .ok (.subn 1 0xE) ∧
    decodeWord 0b1000000111101110 = .ok (.shl 1 0xE) := by decide
theorem test_decode_drw : decodeWord 0b1101011110100011 = .ok (.drw 7 0xA 3) := by decide
theorem test_decode_E :
    decodeWord 0b1110010110011110 = .ok (.skp 5) ∧ decodeWord 0b1110011010100001 = .ok (.sknp 6) := by decide
theorem test_decode_F :
    decodeWord 0b1111001100000111 = .ok (.ldVxDt 3) ∧ decodeWord 0b1111010100001010 = .ok (.ldVxK 5) ∧
    decodeWord 0b1111000100010101 = .ok (.ldDtVx 1) ∧ decodeWord 0b1111001000011000 = .ok (.ldStVx 2) ∧
    decodeWord 0b1111001000011110 = .ok (.addIVx 2) ∧ decodeWord 0b1111010000101001 = .ok (.ldFVx 4) ∧
    decodeWord 0b1111110000110011 = .ok (.ldBVx 0xC) ∧ decodeWord 0b1111111101010101 = .ok (.ldMemVx 0xF) ∧
    decodeWord 0b1111111001100101 = .ok (.ldVxMem 0xE) := by decide
/-- V-E1, V-E3 to V-E6, V-S6, V-S14. -/
theorem test_decode_unrecognized :
    decodeWord 0xF000 = .error (.unrecognized 0xF000) ∧ decodeWord 0x8008 = .error (.unrecognized 0x8008) ∧
    decodeWord 0x800F = .error (.unrecognized 0x800F) ∧ decodeWord 0xE0FF = .error (.unrecognized 0xE0FF) ∧
    decodeWord 0xE09F = .error (.unrecognized 0xE09F) ∧ decodeWord 0xF066 = .error (.unrecognized 0xF066) ∧
    decodeWord 0x5121 = .error (.unrecognized 0x5121) ∧ decodeWord 0x912F = .error (.unrecognized 0x912F) := by decide
/-- V-E8, R46: big-endian, two bytes consumed. -/
theorem test_decode_bytes :
    decode [0x12, 0x34, 0x56] = .ok (.jp 0x234, [0x56]) ∧ decode [0x12] = .error .truncated := by decide
theorem test_decodeTableWord :
    decodeTableWord 16 0x00E0 = some .cls ∧ decodeTableWord 16 0xD7A3 = some (.drw 7 0xA 3) ∧
    decodeTableWord 16 0x5121 = none := by decide

/-! ## One step -/

/-- The word runs as the first instruction after reset, and where PC cannot be fetched from. -/
theorem test_withFetchWord :
    (run 0x6A42 State.reset).map (fun t => (t.getV 0xA, t.pc)) = some (0x42, 0x202) ∧
    (run 0x6A42 (State.reset.setPc 0xFFF)).map (fun t => (t.getV 0xA, t.pc)) = some (0x42, 0x202) := by decide
/-- V-E1, V-E2. -/
theorem test_unrecognized :
    (run 0xF000 State.reset).map (fun t => (t.pc, t.mode)) = some (0x202, .running) ∧
    halt 0xF000 { State.reset with cfg := { Config.hardware with strictDecode := true } } =
      some (.halted, ⟨6, 0x200, 0xF000, true, 0⟩, 0x200) := by decide
/-- V-C13, V-C14. -/
theorem test_fetch_past_the_top :
    (after (step (State.reset.setPc 0x1000))).map (fun t => (t.mode, t.fault, t.pc)) =
      some (.halted, ⟨1, 0x1000, 0, false, 0x1000⟩, 0x1000) ∧
    (after (step (State.reset.setPc 0xFFF))).map (fun t => (t.mode, t.fault, t.pc)) =
      some (.halted, ⟨1, 0xFFF, 0, false, 0x1000⟩, 0xFFF) := by decide

/-! ### Display -/

theorem test_cls :
    (run 0x00E0 { State.reset with fb := State.reset.fb.toggle 3 4 }).map (fun t => (t.fb.pixel 3 4, t.frameReady, t.pc)) =
      some (false, true, 0x202) := by decide
/-- V-D1. -/
theorem test_drw_start_wraps :
    (run 0xD011 ((regsI 0x300 [(0, 70), (1, 40)]).putBytes 0x300 [0x80])).map
      (fun t => (t.fb.pixel 8 6, t.fb.pixel 8 7, t.getV 0xF, t.frameReady, t.pc)) =
      some (true, false, 0, true, 0x202) := by decide
/-- V-D2: a lit pixel under a 1 bit is erased, one under a 0 bit is not. -/
theorem test_drw_collision :
    (run 0xD011 { (regsI 0x300 []).putBytes 0x300 [0xF0] with
        fb := (State.reset.fb.toggle 0 2).toggle 0 5 }).map
      (fun t => ((List.range 7).map (t.fb.pixel 0), t.getV 0xF)) =
      some ([true, true, false, true, false, true, false], 1) := by decide

/-! ### Control transfer -/

/-- V-C2, V-C1. -/
theorem test_ret :
    (run 0x00EE { State.reset with sp := 2, stack := (State.reset.stack.set 0 0x206).set 1 0x304 }).map
      (fun t => (t.sp, t.pc, t.stack[1])) = some (1, 0x304, 0x304) := by decide
theorem test_ret_underflow : halt 0x00EE State.reset = some (.halted, ⟨2, 0x200, 0x00EE, true, 0⟩, 0x200) := by decide
/-- V-C7. -/
theorem test_sys : (run 0x01EE State.reset).map (·.pc) = some 0x1EE := by decide
/-- V-C12. -/
theorem test_jp : (run 0x1208 State.reset).map (·.pc) = some 0x208 := by decide
/-- V-C3. -/
theorem test_call :
    (run 0x2FFF { State.reset with sp := 15 }).map (fun t => (t.stack[15], t.sp, t.pc)) =
      some (0x202, 16, 0xFFF) := by decide
/-- V-C4. -/
theorem test_call_overflow :
    halt 0x2FFF { State.reset with sp := 16 } = some (.halted, ⟨3, 0x200, 0x2FFF, true, 0⟩, 0x200) := by decide
/-- V-C10. -/
theorem test_jpV0 : (run 0xBFFF (regs [(0, 0xFF)])).map (·.pc) = some 0x10FE := by decide

/-! ### Skips -/

/-- V-S1, V-S2. -/
theorem test_seVxKk :
    (run 0x3310 (regs [(3, 0x10)])).map (·.pc) = some 0x204 ∧
    (run 0x3310 (regs [(3, 0x11)])).map (·.pc) = some 0x202 := by decide
/-- V-S3, V-S4. -/
theorem test_sneVxKk :
    (run 0x4310 (regs [(3, 0x10)])).map (·.pc) = some 0x202 ∧
    (run 0x4310 (regs [(3, 0x11)])).map (·.pc) = some 0x204 := by decide
/-- V-S5. -/
theorem test_seVxVy : (run 0x5120 (regs [(1, 7), (2, 7)])).map (·.pc) = some 0x204 := by decide
/-- V-S7, V-S8. -/
theorem test_sneVxVy :
    (run 0x9120 (regs [(1, 7), (2, 8)])).map (·.pc) = some 0x204 ∧
    (run 0x9110 (regs [(1, 7)])).map (·.pc) = some 0x202 := by decide
/-- V-S9, V-S10. -/
theorem test_skp :
    (run 0xE59E { regs [(5, 7)] with keys := keysOfSnapshot 0x0080 }).map (·.pc) = some 0x204 ∧
    (run 0xE59E (regs [(5, 7)])).map (·.pc) = some 0x202 := by decide
/-- V-S13. -/
theorem test_skp_invalid :
    halt 0xE59E (regs [(5, 0x10)]) = some (.halted, ⟨5, 0x200, 0xE59E, true, 0⟩, 0x200) := by decide
/-- V-S11, V-S12. -/
theorem test_sknp :
    (run 0xE5A1 (regs [(5, 7)])).map (·.pc) = some 0x204 ∧
    (run 0xE5A1 { regs [(5, 7)] with keys := keysOfSnapshot 0x0080 }).map (·.pc) = some 0x202 := by decide

/-! ### Registers and ALU: Vx, VF, and VF as the destination -/

/-- V-A31. -/
theorem test_ldVxKk : (run 0x6F00 (regs [(0xF, 9)])).map (fun t => (t.getV 0xF, t.pc)) = some (0, 0x202) := by decide
/-- V-A24, V-A23. -/
theorem test_addVxKk :
    (run 0x70FF (regs [(0, 2), (0xF, 0x55)])).map (fun t => (t.getV 0, t.getV 0xF)) = some (1, 0x55) ∧
    (run 0x7FFF (regs [(0xF, 2)])).map (·.getV 0xF) = some 1 := by decide
/-- L1-1. -/
theorem test_ldVxVy : (run 0x8BA0 (regs [(0xA, 0x42)])).map (·.getV 0xB) = some 0x42 := by decide
/-- V-A25. -/
theorem test_or :
    (run 0x8011 (regs [(0, 0x0F), (1, 0xF0), (0xF, 0x77)])).map (fun t => (t.getV 0, t.getV 0xF)) =
      some (0xFF, 0x77) := by decide
/-- V-A26. -/
theorem test_and :
    (run 0x8012 (regs [(0, 0x0F), (1, 0x3C), (0xF, 0x77)])).map (fun t => (t.getV 0, t.getV 0xF)) =
      some (0x0C, 0x77) := by decide
/-- V-A27. -/
theorem test_xor : (run 0x8003 (regs [(0, 0x5A)])).map (·.getV 0) = some 0 := by decide
/-- V-A1, V-A2. -/
theorem test_add :
    (run 0x8014 (regs [(0, 0x80), (1, 0x80)])).map (fun t => (t.getV 0, t.getV 0xF)) = some (0, 1) ∧
    (run 0x8014 (regs [(0, 0xFE), (1, 0x01)])).map (fun t => (t.getV 0, t.getV 0xF)) = some (0xFF, 0) := by decide
/-- V-A4, V-A5. -/
theorem test_add_vf :
    (run 0x8F14 (regs [(0xF, 0x10), (1, 0x20)])).map (·.getV 0xF) = some 0 ∧
    (run 0x80F4 (regs [(0, 1), (0xF, 0xFF)])).map (fun t => (t.getV 0, t.getV 0xF)) = some (0, 1) := by decide
/-- L1-3, V-A7. -/
theorem test_sub :
    (run 0x8015 (regs [(0, 1), (1, 2)])).map (fun t => (t.getV 0, t.getV 0xF)) = some (0xFF, 0) ∧
    (run 0x8015 (regs [(0, 5), (1, 5)])).map (fun t => (t.getV 0, t.getV 0xF)) = some (0, 0) := by decide
/-- V-A9. -/
theorem test_sub_vf : (run 0x8F15 (regs [(0xF, 5), (1, 3)])).map (·.getV 0xF) = some 1 := by decide
/-- V-A16, V-A18. -/
theorem test_shr :
    (run 0x8016 (regs [(0, 5), (1, 0xFF)])).map (fun t => (t.getV 0, t.getV 1, t.getV 0xF)) = some (2, 0xFF, 1) ∧
    (run 0x8F06 (regs [(0xF, 3)])).map (·.getV 0xF) = some 1 := by decide
/-- V-A12, V-A13. -/
theorem test_subn :
    (run 0x8017 (regs [(0, 2), (1, 1)])).map (fun t => (t.getV 0, t.getV 0xF)) = some (0xFF, 0) ∧
    (run 0x8017 (regs [(0, 1), (1, 2)])).map (fun t => (t.getV 0, t.getV 0xF)) = some (1, 1) := by decide
/-- V-A19, V-A20. -/
theorem test_shl :
    (run 0x801E (regs [(0, 0x81)])).map (fun t => (t.getV 0, t.getV 0xF)) = some (2, 1) ∧
    (run 0x801E (regs [(0, 0x40)])).map (fun t => (t.getV 0, t.getV 0xF)) = some (0x80, 0) := by decide
/-- V-A30 holds whatever the draw is: masked with 0. -/
theorem test_rnd_pc : (run 0xC000 State.reset).map (fun t => (t.pc, t.randDraws)) = some (0x202, 1) := by decide

/-! ### Address register and memory -/

/-- V-M15. -/
theorem test_ldI : (run 0xA400 (regsI 0x300 [])).map (·.iReg) = some 0x400 := by decide
/-- V-M5, V-M6. -/
theorem test_addI :
    (run 0xF21E (regsI 0xFFFF [(2, 1)])).map (·.iReg) = some 0 ∧
    (run 0xFF1E (regsI 0x0FFF [(0xF, 2)])).map (fun t => (t.iReg, t.getV 0xF)) = some (0x1001, 2) := by decide
/-- V-M2. -/
theorem test_ldF : (run 0xF429 (regs [(4, 0x0F)])).map (·.iReg) = some 0x04B := by decide
/-- V-M3. -/
theorem test_ldF_invalid :
    halt 0xF429 (regs [(4, 0x10)]) = some (.halted, ⟨4, 0x200, 0xF429, true, 0⟩, 0x200) := by decide
/-- V-M8. -/
theorem test_ldB :
    (run 0xF033 (regsI 0xFFD [(0, 255)])).map (fun t => ([0xFFD, 0xFFE, 0xFFF].map t.byteAt, t.iReg)) =
      some ([2, 5, 5], 0xFFD) := by decide
/-- V-M7. -/
theorem test_ldB_past_the_top :
    halt 0xF033 (regsI 0xFFE [(0, 156)]) = some (.halted, ⟨1, 0x200, 0xF033, true, 0x1000⟩, 0x200) ∧
    (run 0xF033 (regsI 0xFFE [(0, 156)])).map (·.byteAt 0xFFE) = some 0 := by decide
/-- V-M11, V-M10. -/
theorem test_ldMem :
    (run 0xF055 (regsI 0xFFF [(0, 9)])).map (fun t => (t.byteAt 0xFFF, t.iReg)) = some (9, 0x1000) ∧
    (run 0xF155 (regsI 0xFFF [(0, 1), (1, 2)])).map (fun t => (t.mode, t.fault.addr, t.byteAt 0xFFF, t.iReg)) =
      some (.halted, 0x1000, 0, 0xFFF) := by decide
/-- V-M16: the word stored is the one fetched next. -/
theorem test_ldMem_code :
    ((run 0xF155 { regsI 0x208 [(0, 0x60), (1, 0x05)] with pc := 0x206 }).bind fun t => after (step t)).map
      (fun t => (t.getV 0, t.pc)) = some (5, 0x20A) := by decide
/-- V-M12 with fewer registers; V-M13. -/
theorem test_ldVxMem :
    (run 0xF265 ((regsI 0x300 [(3, 7)]).putBytes 0x300 [0x10, 0x11, 0x12, 0x13])).map
      (fun t => ([0, 1, 2, 3].map t.getV, t.iReg)) = some ([0x10, 0x11, 0x12, 7], 0x303) ∧
    halt 0xF165 (regsI 0xFFFF []) = some (.halted, ⟨1, 0x200, 0xF165, true, 0xFFFF⟩, 0x200) := by decide

/-! ### Timers and the key-wait -/

/-- V-T1. -/
theorem test_ldVxDt : (run 0xF307 { State.reset with dt := 0x3C }).map (·.getV 3) = some 0x3C := by decide
/-- V-T2. -/
theorem test_ldDtVx : (run 0xF115 (regs [(1, 0x3C)])).map (·.dt) = some 0x3C := by decide
/-- V-T3, V-T6. -/
theorem test_ldStVx :
    (run 0xF218 (regs [(2, 2)])).map (fun t => (t.st, t.audioOn)) = some (2, true) ∧
    (run 0xF018 { State.reset with st := 5, audioOn := true }).map (fun t => (t.st, t.audioOn)) =
      some (0, false) := by decide
/-- V-T9, then V-T12's poll. -/
theorem test_ldVxK :
    (run 0xF50A (State.reset.setPc 0x300)).map (fun t => (t.mode, t.waitReg, t.pc)) =
      some (.awaitingKey, 5, 0x302) ∧
    (after (step { State.reset with mode := .awaitingKey, waitReg := 1, keys := keysOfSnapshot 0x0004 })).map
      (fun t => (t.mode, t.getV 1, t.pc)) = some (.running, 2, 0x200) := by decide

/-! ### Events -/

/-- V-T5, V-T7, V-T8. -/
theorem test_timerEvent :
    (after (step (before .timer { State.reset with st := 1, audioOn := true }))).map (fun t => (t.st, t.dt, t.audioOn)) =
      some (0, 0, false) ∧
    (after (step (before .timer { State.reset with dt := 2, mode := .awaitingKey }))).map (·.dt) = some 1 ∧
    (after (step (before .timer { State.reset with dt := 2, st := 3, mode := .halted }))).map
      (fun t => (t.dt, t.st, t.audioOn)) = some (2, 3, false) := by decide
/-- V-T13. -/
theorem test_keysEvent :
    (after (step (before (.keys 0x0080) { State.reset with mode := .awaitingKey }))).map
      (fun t => (t.keys[7], t.keys[8], t.mode)) = some (true, false, .awaitingKey) := by decide
/-- V-R4. -/
theorem test_loadEvent :
    (after (step (before (.load [0x12, 0x00, 0x6A]) State.reset))).map
      (fun t => [0x200, 0x201, 0x202, 0x203].map t.byteAt) = some [0x12, 0x00, 0x6A, 0x00] := by decide
/-- V-R1. -/
theorem test_resetEvent :
    (after (step (before .reset { regsI 0x300 [(1, 1)] with mode := .halted, pc := 0x302, sp := 3 }))).map
      (fun t => (t.getV 1, t.iReg, t.sp, t.pc, t.mode, t.byteAt 0)) = some (0, 0, 0, 0x200, .running, 0xF0) := by decide

/-! ## Witnesses: each obligation's hypotheses are met -/

theorem witness_DecodeOfEncodeIsTheInstruction :
    (Instr.sys 0x0E1).WellFormed ∧ (Instr.sys 0xFFF).WellFormed ∧ (Instr.drw 0xF 0xF 0xF).WellFormed := by decide
theorem witness_EncodeOfDecodedIsTheWord :
    decodeWord 0x0FFF = .ok (.sys 0xFFF) ∧ decodeWord 0xFF65 = .ok (.ldVxMem 0xF) := by decide
theorem witness_PatternsSelectTheInstruction :
    ((0x0E1 : Addr) ≠ 0x0E0 ∧ (0x0E1 : Addr) ≠ 0x0EE) ∧ ((0x0ED : Addr) ≠ 0x0E0 ∧ (0x0ED : Addr) ≠ 0x0EE) := by decide

/-- The reset state with a word at PC. -/
def holding (w : Word) : State := State.reset.putBytes 0x200 (bytesOfWord w)

theorem witness_StepRunsTheDecodedInstruction :
    ((holding 0x8014).InstrNext ∧ (holding 0x8014).mode = .running ∧ (holding 0x8014).CanFetch ∧
      decodeWord (holding 0x8014).wordAtPc = .ok (.addVxVy 0 1)) ∧
    ((State.reset.setPc 0xFFE).CanFetch ∧ decodeWord (State.reset.setPc 0xFFE).wordAtPc = .ok (.sys 0)) := by decide
theorem witness_FetchPastTheTopHalts :
    (State.reset.setPc 0xFFF).InstrNext ∧ (State.reset.setPc 0xFFF).mode = .running ∧
    ¬ (State.reset.setPc 0xFFF).CanFetch ∧ ¬ (State.reset.setPc 0x1000).CanFetch := by decide
theorem witness_UnrecognizedWordFollowsTheDecodePolicy :
    (let s := holding 0xF000
     s.InstrNext ∧ s.mode = .running ∧ s.CanFetch ∧ decodeWord s.wordAtPc = .error (.unrecognized s.wordAtPc) ∧
       s.cfg.strictDecode = false) ∧
    (let s := { holding 0xF000 with cfg := { Config.hardware with strictDecode := true } }
     s.InstrNext ∧ s.mode = .running ∧ s.CanFetch ∧ decodeWord s.wordAtPc = .error (.unrecognized s.wordAtPc) ∧
       s.cfg.strictDecode = true) := by decide

/-- A state waiting for a key. -/
def waiting (k : BitVec 16) : State := { State.reset with mode := .awaitingKey, waitReg := 0xF, keys := keysOfSnapshot k }

theorem witness_KeyPollStoresTheLeastPressedKey :
    ((waiting 0x8001).InstrNext ∧ (waiting 0x8001).mode = .awaitingKey ∧ (waiting 0x8001).keys[(0 : Fin 16)] = true ∧
      ∀ j : Fin 16, j < 0 → (waiting 0x8001).keys[j] = false) ∧
    ((waiting 0x8000).keys[(15 : Fin 16)] = true ∧ ∀ j : Fin 16, j < 15 → (waiting 0x8000).keys[j] = false) ∧
    (∀ k : Fin 16, (waiting 0).keys[k] = false) := by decide

/-- A halted state. -/
def haltedState : State := State.reset.raiseFatal .stackUnderflow (some 0x00EE)

theorem witness_HaltedBlockIgnoresTicks :
    haltedState.mode = .halted ∧ haltedState.nextEvent = .instr ∧
    (before .timer haltedState).mode = .halted ∧ (before .timer haltedState).nextEvent = .timer := by decide
theorem witness_TimerEventCountsBothTimersDown :
    ((before .timer State.reset).nextEvent = .timer ∧ (before .timer State.reset).mode ≠ .halted) ∧
    ((before .timer (waiting 0)).nextEvent = .timer ∧ (before .timer (waiting 0)).mode ≠ .halted) := by decide
theorem witness_KeysEventReplacesTheKeys : (before (.keys 0xFFFF) haltedState).nextEvent = .keys 0xFFFF := by decide
theorem witness_ResetEventPutsTheInitialValues : (before .reset haltedState).nextEvent = .reset := by decide
theorem witness_LoadEventPlacesTheImage_fits :
    let s := before (.load (List.replicate 3584 0xAA)) State.reset
    s.nextEvent = .load (List.replicate 3584 0xAA) ∧ s.loadWindow = true ∧
      0x200 + (List.replicate 3584 (0xAA : Byte)).length ≤ 4096 ∧ Memory.wf s.cfg s.mem :=
  ⟨rfl, rfl, by simp only [List.length_replicate]; omega, by decide⟩
theorem witness_LoadEventPlacesTheImage_tooLarge :
    let s := before (.load (List.replicate 3585 0xAA)) State.reset
    s.nextEvent = .load (List.replicate 3585 0xAA) ∧ s.loadWindow = true ∧
      0x200 + (List.replicate 3585 (0xAA : Byte)).length > 4096 :=
  ⟨rfl, rfl, by simp only [List.length_replicate]; omega⟩
theorem witness_LoadEventPlacesTheImage_late :
    let s := before (.load [0x12]) { State.reset with loadWindow := false }
    s.nextEvent = .load [0x12] ∧ s.loadWindow = false := by decide

/-- The reset state with some cells stored. -/
def stored : State := State.reset.putBytes 0xFFE [0x12, 0x34]

theorem witness_MemoryAccessIsCheckedAgainst4096 :
    Memory.wf stored.cfg stored.mem ∧ (4095 : Nat) < 4096 ∧ (4096 : Nat) ≤ 4096 ∧ (4094 : Nat) ≠ 4095 := by decide
theorem witness_MemoriesThatReadAlikeAreEqual :
    stored.cfg = (stored.setPc 0x300).cfg ∧ Memory.wf stored.cfg stored.mem ∧
      Memory.wf (stored.setPc 0x300).cfg (stored.setPc 0x300).mem ∧
      ∀ a : Nat, a < 4096 → stored.byteAt a = (stored.setPc 0x300).byteAt a :=
  ⟨rfl, by decide, by decide, fun _ _ => rfl⟩

theorem wf_reset_fb : Framebuffer.wf State.reset.cfg State.reset.fb := blankFramebuffer_wf Config.hardware

theorem witness_DrwXorsTheSpriteAndReportsCollision :
    Framebuffer.wf (regsI 0xFFF []).cfg (regsI 0xFFF []).fb ∧ (regsI 0xFFF []).iReg.toNat + (1 : Nibble).toNat ≤ 4096 ∧
      8 ≤ (regsI 0xFFF []).cfg.fbW ∧ 15 ≤ (regsI 0xFFF []).cfg.fbH :=
  ⟨wf_reset_fb, by decide, by decide, by decide⟩
theorem witness_DrwPastTheTopHalts :
    ((2 : Nibble) ≠ 0 ∧ (regsI 0xFFF []).iReg.toNat + (2 : Nibble).toNat > 4096) ∧
    ((1 : Nibble) ≠ 0 ∧ (regsI 0xFFFF []).iReg.toNat + (1 : Nibble).toNat > 4096) := by decide
theorem witness_DrawingTwiceRestoresTheGrid :
    Framebuffer.wf (regsI 0xFFF []).cfg (regsI 0xFFF []).fb ∧ 8 ≤ (regsI 0xFFF []).cfg.fbW ∧
      15 ≤ (regsI 0xFFF []).cfg.fbH ∧ (regsI 0xFFF []).iReg.toNat + (1 : Nibble).toNat ≤ 4096 ∧
      ∃ t, exec (.drw 0 1 1) (regsI 0xFFF []) = .next t ∧ t.getV 0 = (regsI 0xFFF []).getV 0 ∧
        t.getV 1 = (regsI 0xFFF []).getV 1 :=
  ⟨wf_reset_fb, by decide, by decide, by decide, _, rfl, by decide, by decide⟩
theorem witness_SysAndJpJumpToTheAddress : (0x0E1 : Addr) ≠ 0x0E0 ∧ (0x0E1 : Addr) ≠ 0x0EE := by decide

/-- The reset state with a stack of `n` entries. -/
def deep (n : Byte) : State := { State.reset with sp := n }

theorem witness_CallPushesTheReturnAddress : (deep 15).sp.toNat < 16 ∧ (deep 16).sp = 16 := by decide
theorem witness_RetPopsTheReturnAddress :
    (deep 1).sp.toNat = (0 : Fin 16).val + 1 ∧ (deep 16).sp.toNat = (15 : Fin 16).val + 1 ∧ (deep 0).sp = 0 := by decide
theorem witness_CallAndRetStopWithSpPastTheStack :
    (deep 17).sp.toNat > 16 ∧ (deep 0xFF).sp.toNat > 16 := by decide
theorem witness_SkipsOnKey :
    ((regs [(5, 15)]).getV 5).toNat = (15 : Fin 16).val ∧ ((regs [(5, 16)]).getV 5).toNat > 0xF := by decide
theorem witness_AddRegistersSetsCarry : (0xE : RegIdx) ≠ 0xF ∧ (0xD : RegIdx) ≠ 0xE ∧ (0xD : RegIdx) ≠ 0xF := by decide
theorem witness_SubtractionsSetNotBorrow :
    (0xE : RegIdx) ≠ 0xF ∧ (0xD : RegIdx) ≠ 0xE ∧ (0xD : RegIdx) ≠ 0xF := by decide
theorem witness_LdFPointsAtTheGlyph :
    ((regs [(4, 15)]).getV 4).toNat ≤ 0xF ∧ ((regs [(4, 16)]).getV 4).toNat > 0xF := by decide
theorem witness_LdBStoresTheDecimalDigits :
    ((regsI 0xFFD []).iReg.toNat + 2 < 4096 ∧ Memory.wf (regsI 0xFFD []).cfg (regsI 0xFFD []).mem) ∧
    (regsI 0xFFE []).iReg.toNat + 2 ≥ 4096 := by decide
theorem witness_StoreRegistersAndAdvanceI :
    ((regsI 0xFF0 []).iReg.toNat + (0xF : RegIdx).toNat < 4096 ∧
      Memory.wf (regsI 0xFF0 []).cfg (regsI 0xFF0 []).mem ∧ (0xF : RegIdx) ≤ 0xF) ∧
    (regsI 0xFF1 []).iReg.toNat + (0xF : RegIdx).toNat ≥ 4096 := by decide
theorem witness_LoadRegistersAndAdvanceI :
    (regsI 0xFF0 []).iReg.toNat + (0xF : RegIdx).toNat < 4096 ∧
    (regsI 0xFF1 []).iReg.toNat + (0xF : RegIdx).toNat ≥ 4096 := by decide
theorem witness_StoreThenLoadGivesTheRegistersBack :
    ((regsI 0xFFE []).iReg.toNat = (0xFFE : Addr).toNat ∧ (0xFFE : Addr).toNat + (1 : RegIdx).toNat < 4096 ∧
      Memory.wf (regsI 0xFFE []).cfg (regsI 0xFFE []).mem) ∧
    ∃ t, exec (.ldMemVx 1) (regsI 0xFFE []) = .next t ∧
      ∀ k : Nat, k ≤ (1 : RegIdx).toNat → (t.setPc 0x400).byteAt (0xFFE + k) = t.byteAt (0xFFE + k) :=
  ⟨by decide, _, rfl, fun _ _ => rfl⟩
theorem witness_GlyphCellsCanBeWritten :
    Memory.wf (regsI 0x40 []).cfg (regsI 0x40 []).mem ∧
    (regsI 0x40 []).iReg.toNat + (0xF : RegIdx).toNat < 0x50 ∧ (regsI 0x4D []).iReg.toNat + 2 < 0x50 := by decide
theorem witness_SoundTimerSetsTheAudioTrigger :
    (holding 0xF218).InstrNext ∧ (holding 0xF218).mode = .running ∧ (holding 0xF218).CanFetch ∧
    (holding 0xF218).wordAtPc = 0xF#4 ++ 0x2#4 ++ 0x18#8 := by decide
theorem witness_ResetStateMeetsTheInvariant :
    Config.hardware.Valid ∧ ({ Config.hardware with fbW := 1, fbH := 1 } : Config).Valid := by decide
theorem inv_reset : Inv State.reset :=
  { cfg := by decide
    mem := Memory.wf_nil _
    sp := by decide
    fb := wf_reset_fb
    audio := rfl
    fault := ⟨fun _ => rfl, by decide, by decide, by decide, by decide, by decide⟩
    window := fun _ => rfl }
theorem witness_EveryStepKeepsTheInvariant : Inv State.reset ∧ ∃ t, step State.reset = .next t :=
  ⟨inv_reset, _, rfl⟩
theorem witness_StepStopsOnlyOnALateLoad : Inv State.reset := inv_reset
theorem witness_RunsWithLoadsFirstNeverStop :
    Config.hardware.Valid ∧ (∀ bytes, Event.load bytes ∉ [Event.instr, Event.timer, Event.keys 1, Event.reset]) ∧
    Reachable Config.hardware ([[0x12, 0x00], []].map Event.load ++ [Event.instr, Event.timer, Event.keys 1, Event.reset])
      (State.boot Config.hardware
        ([[0x12, 0x00], []].map Event.load ++ [Event.instr, Event.timer, Event.keys 1, Event.reset])) :=
  ⟨by decide, by simp, .boot⟩
theorem witness_HaltingInstructionCommitsNothing :
    ∃ t, exec .ret State.reset = .next t ∧ State.reset.mode ≠ .halted ∧ t.mode = .halted := ⟨_, rfl, by decide, rfl⟩
theorem witness_FatalConditionsAreRaisedByTheseOnly_memory :
    (∃ t, exec (.drw 0 1 2) (regsI 0xFFF []) = .next t ∧ t.mode = .halted) ∧
    (∃ t, exec (.ldBVx 0) (regsI 0xFFE []) = .next t ∧ t.mode = .halted) ∧
    (∃ t, exec (.ldMemVx 0xF) (regsI 0xFF1 []) = .next t ∧ t.mode = .halted) ∧
    (∃ t, exec (.ldVxMem 0xF) (regsI 0xFF1 []) = .next t ∧ t.mode = .halted) ∧ State.reset.mode ≠ .halted :=
  ⟨⟨_, rfl, rfl⟩, ⟨_, rfl, rfl⟩, ⟨_, rfl, rfl⟩, ⟨_, rfl, rfl⟩, by decide⟩
theorem witness_FatalConditionsAreRaisedByTheseOnly_other :
    (∃ t, exec .ret (deep 0) = .next t ∧ t.mode = .halted) ∧
    (∃ t, exec (.call 0x300) (deep 16) = .next t ∧ t.mode = .halted) ∧
    (∃ t, exec (.ldFVx 4) (regs [(4, 16)]) = .next t ∧ t.mode = .halted) ∧
    (∃ t, exec (.skp 5) (regs [(5, 16)]) = .next t ∧ t.mode = .halted) ∧
    (∃ t, exec (.sknp 5) (regs [(5, 16)]) = .next t ∧ t.mode = .halted) :=
  ⟨⟨_, rfl, rfl⟩, ⟨_, rfl, rfl⟩, ⟨_, rfl, rfl⟩, ⟨_, rfl, rfl⟩, ⟨_, rfl, rfl⟩⟩
theorem witness_InstructionsWriteOnlyTheirState :
    (∃ t, exec (.call 0x300) State.reset = .next t ∧ t.sp ≠ State.reset.sp ∧ t.stack ≠ State.reset.stack) ∧
    (∃ t, exec (.ldI 0x300) State.reset = .next t ∧ t.iReg ≠ State.reset.iReg) ∧
    (∃ t, exec (.ldDtVx 1) (regs [(1, 9)]) = .next t ∧ t.dt ≠ (regs [(1, 9)]).dt) ∧
    (∃ t, exec (.ldStVx 1) (regs [(1, 9)]) = .next t ∧ t.st ≠ (regs [(1, 9)]).st) ∧
    (∃ t, exec (.ldVxK 5) State.reset = .next t ∧ t.waitReg ≠ State.reset.waitReg) ∧
    (∃ t, exec .cls State.reset = .next t ∧ t.frameReady ≠ State.reset.frameReady) ∧
    (∃ t, exec (.ldMemVx 1) (regsI 0x300 [(1, 9)]) = .next t ∧ t.mem ≠ (regsI 0x300 [(1, 9)]).mem) ∧
    (∃ t, exec (.rnd 1 9) State.reset = .next t ∧ t.randDraws ≠ State.reset.randDraws) ∧
    (∃ t, exec .ret State.reset = .next t ∧ t.fault ≠ State.reset.fault) :=
  ⟨⟨_, rfl, by decide, by decide⟩, ⟨_, rfl, by decide⟩, ⟨_, rfl, by decide⟩, ⟨_, rfl, by decide⟩, ⟨_, rfl, by decide⟩,
    ⟨_, rfl, by decide⟩, ⟨_, rfl, by decide⟩, ⟨_, rfl, by simp⟩, ⟨_, rfl, by decide⟩⟩
theorem witness_VfIsWrittenByTheseOnly :
    (∃ t, exec (.addVxVy 0 1) (regs [(0, 0xFF), (1, 1)]) = .next t ∧
      t.getV 0xF ≠ (regs [(0, 0xFF), (1, 1)]).getV 0xF) ∧
    (∃ t, exec (.ldVxKk 0xF 7) State.reset = .next t ∧ t.getV 0xF ≠ State.reset.getV 0xF) :=
  ⟨⟨_, rfl, by decide⟩, ⟨_, rfl, by decide⟩⟩
theorem witness_HaltedIsEnteredByFatalAndLeftByReset :
    (∃ t, step (holding 0x00EE) = .next t ∧ (holding 0x00EE).mode ≠ .halted ∧ t.mode = .halted) ∧
    (∃ t, step (before .reset haltedState) = .next t ∧ (before .reset haltedState).mode = .halted ∧ t.mode ≠ .halted) :=
  ⟨⟨_, rfl, by decide, by decide⟩, ⟨_, rfl, by decide, by decide⟩⟩
theorem witness_KeyWaitIsEnteredByFx0AAndLeftByAKey :
    (∃ t, step (holding 0xF50A) = .next t ∧ (holding 0xF50A).mode ≠ .awaitingKey ∧ t.mode = .awaitingKey) ∧
    (∃ t, step (waiting 0x8000) = .next t ∧ (waiting 0x8000).mode = .awaitingKey ∧ t.mode ≠ .awaitingKey) ∧
    (∃ t, step (before .reset (waiting 0)) = .next t ∧ (waiting 0).mode = .awaitingKey ∧ t.mode ≠ .awaitingKey) :=
  ⟨⟨_, rfl, by decide, by decide⟩, ⟨_, rfl, by decide, by decide⟩, ⟨_, rfl, by decide, by decide⟩⟩
theorem witness_KeysAndConfigAreTheOutsides :
    ∃ t, step (before (.keys 0x8001) State.reset) = .next t ∧ t.keys ≠ (before (.keys 0x8001) State.reset).keys :=
  ⟨_, rfl, by decide⟩
theorem witness_AudioFollowsTheSoundTimer :
    ∃ t, step (before .timer { State.reset with st := 2 }) = .next t ∧ t.st ≠ 0 ∧ t.mode ≠ .halted :=
  ⟨_, rfl, by decide, by decide⟩
theorem witness_FrameReadyPulsesAfterDisplayInstructions :
    (∃ t, step (holding 0x00E0) = .next t ∧ t.frameReady = true) ∧
    (∃ t, step (holding 0xD011) = .next t ∧ t.frameReady = true) :=
  ⟨⟨_, rfl, by decide⟩, ⟨_, rfl, by decide⟩⟩
theorem witness_TimersChangeOnlyAtTimerEventsOrWrites :
    ∃ t, step (before .timer { State.reset with dt := 2, st := 1 }) = .next t ∧
      t.dt ≠ (before .timer { State.reset with dt := 2, st := 1 }).dt ∧
      t.st ≠ (before .timer { State.reset with dt := 2, st := 1 }).st :=
  ⟨_, rfl, by decide, by decide⟩
theorem witness_FetchSeesStoredBytes :
    (Memory.wf (regsI 0xFFE []).cfg (regsI 0xFFE []).mem ∧ (regsI 0xFFE []).iReg.toNat + (1 : RegIdx).toNat < 4096 ∧
      1 ≤ (1 : RegIdx).toNat) ∧
    ∃ t, exec (.ldMemVx 1) (regsI 0xFFE []) = .next t ∧ (t.setPc 0xFFE).mem = t.mem ∧ (t.setPc 0xFFE).cfg = t.cfg ∧
      (t.setPc 0xFFE).pc = (regsI 0xFFE []).iReg :=
  ⟨by decide, _, rfl, rfl, rfl, rfl⟩

end Sys2Proof.Tests
end

section
/-! PROOFS. The state of the block (10_state.md): what an instruction can do to every field, said once, and from it what every
step keeps. -/

/-! ## What an instruction does -/

namespace Sys2Proof

/-- The instructions whose result goes to `V[x]` and nowhere else, Cxkk and Fx65 apart (R78 to R83, R97). -/
def Instr.Assigns (i : Instr) (x : RegIdx) : Prop :=
  (∃ kk, i = .ldVxKk x kk ∨ i = .addVxKk x kk) ∨
  (∃ y, i = .ldVxVy x y ∨ i = .orVxVy x y ∨ i = .andVxVy x y ∨ i = .xorVxVy x y) ∨ i = .ldVxDt x

/-- The instructions of the datapath that end in a flag (R84 to R88). -/
def Instr.SetsFlag (i : Instr) : Prop :=
  ∃ x y, i = .addVxVy x y ∨ i = .sub x y ∨ i = .subn x y ∨ i = .shr x y ∨ i = .shl x y

end Sys2Proof

namespace Sys2Proof.Machine

/-- The next states of instruction `i` from `s` by the fields it writes: `Executed` refined from the mode and the fault record to
the whole state. -/
inductive Effect (i : Instr) (s : State) : State → Prop where
  | raised (f : FatalCondition) (recognized : ∀ w, f ≠ .unrecognizedOpcode w) :
      Effect i s (s.raiseFatal f (some (encode i)))
  | jumped (pc : Word) : Effect i s (s.setPc pc)
  | stacked (sp : Byte) (stack : Vector Word 16) (pc : Word) (instr : i = .ret ∨ ∃ addr, i = .call addr)
      (bound : sp.toNat ≤ stackDepth) : Effect i s ({ s with sp := sp, stack := stack }.setPc pc)
  | assigned (x : RegIdx) (b : Byte) (pc : Word) (instr : i.Assigns x) : Effect i s ((s.setV x b).setPc pc)
  | flagged (x : RegIdx) (b : Byte) (flag : Bool) (pc : Word) (instr : i.SetsFlag) :
      Effect i s ((s.setVAndFlag x b flag).setPc pc)
  | sampled (x : RegIdx) (kk b : Byte) (pc : Word) (instr : i = .rnd x kk) :
      Effect i s (({ s with randDraws := s.randDraws + 1 }.setV x b).setPc pc)
  | cleared (pc : Word) (instr : i = .cls) :
      Effect i s ({ s with fb := blankFramebuffer s.cfg, frameReady := true }.setPc pc)
  | drew (x y : RegIdx) (n : Nibble) (fb : Framebuffer) (collision : Bool) (pc : Word) (instr : i = .drw x y n)
      (size : Framebuffer.wf s.cfg s.fb → Framebuffer.wf s.cfg fb) :
      Effect i s (({ s with fb := fb, frameReady := true }.setV vf (flagByte collision)).setPc pc)
  | indexed (addr pc : Word) (instr : (∃ a, i = .ldI a) ∨ ∃ x, i = .addIVx x ∨ i = .ldFVx x) :
      Effect i s ((s.setI addr).setPc pc)
  | storedDigits (x : RegIdx) (mem : Memory) (pc : Word) (instr : i = .ldBVx x)
      (form : Memory.wf s.cfg s.mem → Memory.wf s.cfg mem) : Effect i s ({ s with mem := mem }.setPc pc)
  | storedRegs (x : RegIdx) (mem : Memory) (addr pc : Word) (instr : i = .ldMemVx x)
      (form : Memory.wf s.cfg s.mem → Memory.wf s.cfg mem) :
      Effect i s (({ s with mem := mem }.setI addr).setPc pc)
  | loadedRegs (x : RegIdx) (bytes : List Byte) (addr pc : Word) (instr : i = .ldVxMem x)
      (count : bytes.length = x.toNat + 1) :
      Effect i s (({ s with v := (s.loadV 0 bytes).v }.setI addr).setPc pc)
  | awaited (x : RegIdx) (pc : Word) (instr : i = .ldVxK x) :
      Effect i s ({ s with waitReg := x, mode := .awaitingKey }.setPc pc)
  | setDelay (x : RegIdx) (b : Byte) (pc : Word) (instr : i = .ldDtVx x) : Effect i s ({ s with dt := b }.setPc pc)
  | setSound (x : RegIdx) (b : Byte) (pc : Word) (instr : i = .ldStVx x) : Effect i s ({ s with st := b }.setPc pc)

/-- A store whose range check passes keeps the canonical form. -/
theorem State.putBytes_wf_of_inRange {s : State} {a : Nat} {bytes : List Byte}
    (h : leastOutOfRange a bytes.length = none) (hm : Memory.wf s.cfg s.mem) :
    Memory.wf s.cfg (s.putBytes a bytes).mem := by
  have hok : s.memWrites a bytes = .ok (s.putBytes a bytes) := by rw [State.memWrites, h]
  simpa using (State.memWrites_ok hok).2 hm

theorem exec_effect {i : Instr} {s t : State} (h : exec i s = .next t) : Effect i s t := by
  cases i with
  | cls => cases next_inj h; exact .cleared _ rfl
  | ret =>
    simp only [exec, execRet] at h
    split_ifs at h with h0 hlt
    · cases next_inj h; exact .raised _ nofun
    · cases next_inj h
      exact .stacked _ _ _ (.inl rfl) (by simp [trunc8, stackDepth]; omega)
  | call addr =>
    simp only [exec, execCall] at h
    split_ifs at h with hfull hlt
    · cases next_inj h; exact .raised _ nofun
    · cases next_inj h
      exact .stacked _ _ _ (.inr ⟨addr, rfl⟩) (by simp [trunc8, stackDepth]; omega)
  | sys _ | jp _ | jpV0 _ | seVxKk _ _ | sneVxKk _ _ | seVxVy _ _ | sneVxVy _ _ => cases next_inj h; exact .jumped _
  | skp x =>
    simp only [exec, execSkp] at h
    split_ifs at h
    · cases next_inj h; exact .jumped _
    · cases next_inj h; exact .raised _ nofun
  | sknp x =>
    simp only [exec, execSknp] at h
    split_ifs at h
    · cases next_inj h; exact .jumped _
    · cases next_inj h; exact .raised _ nofun
  | ldVxKk _ _ | addVxKk _ _ | ldVxVy _ _ | orVxVy _ _ | andVxVy _ _ | xorVxVy _ _ | ldVxDt _ =>
    cases next_inj h; exact .assigned _ _ _ (by simp [Instr.Assigns])
  | addVxVy _ _ | sub _ _ | shr _ _ | subn _ _ | shl _ _ =>
    cases next_inj h; exact .flagged _ _ _ _ (by simp [Instr.SetsFlag])
  | rnd x kk => cases next_inj h; exact .sampled _ _ _ _ rfl
  | drw x y n =>
    simp only [exec, execDrw_eq] at h
    split at h
    · cases next_inj h; exact .raised _ nofun
    · cases next_inj h
      exact .drew x y n _ _ _ rfl fun hfb => drawRows_wf hfb _ _ _ _
  | ldI a => cases next_inj h; exact .indexed _ _ (.inl ⟨a, rfl⟩)
  | addIVx x => cases next_inj h; exact .indexed _ _ (.inr ⟨x, .inl rfl⟩)
  | ldFVx x =>
    simp only [exec, execLdFVx] at h
    split_ifs at h
    · cases next_inj h; exact .raised _ nofun
    · cases next_inj h; exact .indexed _ _ (.inr ⟨x, .inr rfl⟩)
  | ldBVx x =>
    simp only [exec, execLdBVx_eq] at h
    split at h
    next => cases next_inj h; exact .raised _ nofun
    next hin =>
      cases next_inj h
      rw [State.putBytes_eq]
      exact .storedDigits x _ _ rfl (State.putBytes_wf_of_inRange hin)
  | ldMemVx x =>
    simp only [exec, execLdMemVx_eq] at h
    split at h
    next => cases next_inj h; exact .raised _ nofun
    next hin =>
      cases next_inj h
      rw [State.putBytes_eq]
      exact .storedRegs x _ _ _ rfl (State.putBytes_wf_of_inRange (by rwa [State.length_lowRegs]))
  | ldVxMem x =>
    simp only [exec, execLdVxMem_eq] at h
    split at h
    · cases next_inj h; exact .raised _ nofun
    · cases next_inj h
      rw [State.loadV_eq]
      exact .loadedRegs x _ _ _ rfl (by simp)
  | ldVxK x => cases next_inj h; exact .awaited x _ rfl
  | ldDtVx x => cases next_inj h; exact .setDelay x _ _ rfl
  | ldStVx x => cases next_inj h; exact .setSound x _ _ rfl

/-- No instruction writes the keys. -/
theorem exec_keys {i : Instr} {s t : State} (h : exec i s = .next t) : t.keys = s.keys := by
  cases exec_effect h <;> rfl

/-- No instruction writes the config ports. -/
theorem exec_cfg {i : Instr} {s t : State} (h : exec i s = .next t) : t.cfg = s.cfg := by
  cases exec_effect h <;> rfl

/-- Only Fx15 writes DT. -/
theorem exec_dt {i : Instr} {s t : State} (h : exec i s = .next t) (hne : t.dt ≠ s.dt) : ∃ x, i = .ldDtVx x := by
  cases exec_effect h with
  | setDelay x b pc instr => exact ⟨x, instr⟩
  | _ => exact absurd rfl hne

/-- Only Fx18 writes ST. -/
theorem exec_st {i : Instr} {s t : State} (h : exec i s = .next t) (hne : t.st ≠ s.st) : ∃ x, i = .ldStVx x := by
  cases exec_effect h with
  | setSound x b pc instr => exact ⟨x, instr⟩
  | _ => exact absurd rfl hne

/-- Run in a live state in which the pulse is over, an instruction pulses exactly if it is 00E0 or Dxyn and raises nothing
(10_state.md R30). -/
theorem exec_frameReady {i : Instr} {s t : State} (h : exec i s = .next t) (hlive : s.mode ≠ .halted)
    (hover : s.frameReady = false) :
    t.frameReady = true ↔ t.mode ≠ .halted ∧ (i = .cls ∨ ∃ x y n, i = .drw x y n) := by
  constructor
  · intro hpulse
    cases exec_effect h with
    | cleared pc instr => exact ⟨hlive, .inl instr⟩
    | drew x y n fb collision pc instr size => exact ⟨hlive, .inr ⟨x, y, n, instr⟩⟩
    | _ => exact absurd (hover.symm.trans hpulse) (by decide)
  · rintro ⟨hgoes, rfl | ⟨x, y, n, rfl⟩⟩
    · cases next_inj h; rfl
    · simp only [exec, execDrw_eq] at h
      split at h
      · cases next_inj h; exact absurd rfl hgoes
      · cases next_inj h; rfl

/-! ## What the other events do -/

/-- The key poll, case by case (45_timers_input.md R99). -/
theorem State.keyPoll_cases (s : State) :
    s.keyPoll = s ∨ ∃ k, s.leastPressed = some k ∧ s.keyPoll = { s with mode := .running }.setV s.waitReg (trunc8 k) := by
  unfold State.keyPoll
  cases s.leastPressed with
  | none => exact .inl rfl
  | some k => exact .inr ⟨k, rfl, rfl⟩

/-- A `TimerEvent` changes the timers only (60_exceptions.md R110). -/
theorem State.timerBody_eq (s : State) : s.timerBody = { s with st := s.timerBody.st, dt := s.timerBody.dt } := by
  rw [State.timerBody]; split <;> rfl

/-- A timer that counts changes by one. -/
theorem countDown_eq_or (b : Byte) : countDown b = b ∨ (countDown b).toNat + 1 = b.toNat := by
  by_cases h : b ≠ 0
  · have hpos : b.toNat ≠ 0 := fun e => h (BitVec.eq_of_toNat_eq e)
    right
    rw [countDown, if_pos h, trunc8, BitVec.toNat_ofNat]
    omega
  · exact .inl (if_neg h)

/-- A `TimerEvent` leaves each timer or takes one off it. -/
theorem State.timerBody_counts (s : State) :
    (s.timerBody.dt = s.dt ∨ s.timerBody.dt.toNat + 1 = s.dt.toNat) ∧
    (s.timerBody.st = s.st ∨ s.timerBody.st.toNat + 1 = s.st.toNat) := by
  unfold State.timerBody
  cases s.mode with
  | halted => exact ⟨.inl rfl, .inl rfl⟩
  | running | awaitingKey => exact ⟨countDown_eq_or _, countDown_eq_or _⟩

/-- An unrecognized word is fatal with STRICT_DECODE and else skipped (30_encoding.md R52). -/
theorem State.unrecognized_cases (s : State) (w : Word) :
    (s.cfg.strictDecode = true ∧ s.unrecognized w = s.raiseFatal (.unrecognizedOpcode w) (some w)) ∨
      s.unrecognized w = s.advance := by
  unfold State.unrecognized
  split
  next hstrict => exact .inl ⟨hstrict, rfl⟩
  next => exact .inr rfl

/-! ## The invariant -/

theorem State.mode_ne_halted_of_running {s : State} (h : s.mode = .running) : s.mode ≠ .halted := by
  rw [h]; decide

/-- The record of a block that is not halted is clear, and that is all of the record's part of the invariant. -/
theorem FaultRecordOk.of_live {s : State} (hlive : s.mode ≠ .halted) (hclear : s.fault = FaultRecord.none) :
    FaultRecordOk s where
  clear _ := hclear
  coded h := absurd h hlive
  strict h := absurd h (by rw [hclear]; decide)
  word h := absurd h hlive
  addr _ := by rw [hclear]; rfl
  pc h := absurd h hlive

/-- The record's part of the invariant is about mode, record, PC and STRICT_DECODE only. -/
theorem FaultRecordOk.congr {s t : State} (h : FaultRecordOk s) (mode : t.mode = s.mode) (fault : t.fault = s.fault)
    (pc : t.pc = s.pc) (cfg : t.cfg = s.cfg) : FaultRecordOk t where
  clear := by rw [mode, fault]; exact h.clear
  coded := by rw [mode, fault]; exact h.coded
  strict := by rw [fault, cfg]; exact h.strict
  word := by rw [mode, fault]; exact h.word
  addr := by rw [fault]; exact h.addr
  pc := by rw [mode, fault, pc]; exact h.pc

/-- Entry to a fatal condition writes a record that agrees with the mode (60_exceptions.md R103): `UnrecognizedOpcode` needs
STRICT_DECODE, and a raise without a word the code of `OutOfRangeAddress`. -/
theorem FaultRecordOk.raiseFatal (s : State) (f : FatalCondition) (w : Option Word)
    (strict : ∀ v, f = .unrecognizedOpcode v → s.cfg.strictDecode = true) (word : w = none → f.code = 1) :
    FaultRecordOk (s.raiseFatal f w) where
  clear h := absurd rfl h
  coded _ := by cases f <;> simp [FatalCondition.code]
  strict h := by
    cases f with
    | unrecognizedOpcode v => exact strict v rfl
    | _ => simp [FatalCondition.code] at h
  word _ h := by
    have hw : w = none := by simpa using h
    exact ⟨by simp [hw], word hw⟩
  addr h := by
    cases f with
    | outOfRangeAddress a => exact absurd rfl h
    | _ => rfl
  pc _ := rfl

/-- An event's body that changes neither mode, record, PC nor configuration and keeps the other bounds keeps the invariant. -/
theorem Inv.endEvent_of_same {s u : State} (h : Inv s) (mode : u.mode = s.mode) (fault : u.fault = s.fault)
    (pc : u.pc = s.pc) (cfg : u.cfg = s.cfg) (sp : u.sp = s.sp) (fb : u.fb = s.fb)
    (mem : Memory.wf s.cfg u.mem) (window : u.loadWindow = true → s.loadWindow = true) : Inv u.endEvent where
  cfg := by simpa [cfg] using h.cfg
  mem := by simpa [cfg] using mem
  sp := by simpa [sp] using h.sp
  fb := by simpa [cfg, fb] using h.fb
  audio := rfl
  fault := h.fault.congr mode fault pc cfg
  window hw := mode.trans (h.window (window hw))

/-- An event's body that ends in a live state with a clear record and keeps the bounds keeps the invariant. -/
theorem Inv.endEvent_of_live {s u : State} (h : Inv s) (live : u.mode ≠ .halted) (clear : u.fault = FaultRecord.none)
    (cfg : u.cfg = s.cfg) (sp : u.sp.toNat ≤ stackDepth) (fb : Framebuffer.wf s.cfg u.fb) (mem : Memory.wf s.cfg u.mem)
    (closed : u.loadWindow = false) : Inv u.endEvent where
  cfg := by simpa [cfg] using h.cfg
  mem := by simpa [cfg] using mem
  sp := sp
  fb := by simpa [cfg] using fb
  audio := rfl
  fault := (FaultRecordOk.of_live live clear).congr rfl rfl rfl rfl
  window hw := absurd (closed.symm.trans hw) (by decide)

/-- Entry to a fatal condition in an `InstrEvent` keeps the invariant. -/
theorem Inv.endEvent_raiseFatal {s : State} (h : Inv s) (closed : s.loadWindow = false) (f : FatalCondition)
    (w : Option Word) (strict : ∀ v, f = .unrecognizedOpcode v → s.cfg.strictDecode = true)
    (word : w = none → f.code = 1) : Inv (s.raiseFatal f w).endEvent where
  cfg := h.cfg
  mem := h.mem
  sp := h.sp
  fb := h.fb
  audio := rfl
  fault := (FaultRecordOk.raiseFatal s f w strict word).congr rfl rfl rfl rfl
  window hw := absurd (closed.symm.trans hw) (by decide)

/-- Taking an `InstrEvent` keeps the invariant. -/
theorem Inv.atInstr {s : State} (h : Inv s) : Inv s.atInstr :=
  { cfg := h.cfg, mem := h.mem, sp := h.sp, fb := h.fb, audio := h.audio
    fault := h.fault.congr rfl rfl rfl rfl, window := nofun }

/-- Taking any event keeps the invariant. -/
theorem Inv.beginEvent {s : State} (h : Inv s) (events : List Event) : Inv { s with schedule := events }.beginEvent :=
  { cfg := h.cfg, mem := h.mem, sp := h.sp, fb := h.fb, audio := h.audio
    fault := h.fault.congr rfl rfl rfl rfl, window := h.window }

/-- Right after a reset of a valid configuration the invariant holds (70_reset_and_hazards.md R118). -/
theorem inv_endEvent_afterReset {c : Config} (hc : c.Valid) (keys : Vector Bool 16) (draws : Nat) (events : List Event) :
    Inv (State.afterReset c keys draws events).endEvent where
  cfg := hc
  mem := Memory.wf_nil c
  sp := by simp [State.afterReset]
  fb := blankFramebuffer_wf c
  audio := rfl
  fault := .of_live (by simp [State.afterReset]) rfl
  window _ := rfl

/-- Every instruction, run in an `InstrEvent`, keeps the invariant. -/
theorem Inv.endEvent_exec {i : Instr} {s t : State} (h : Inv s) (hm : s.mode = .running) (hw : s.loadWindow = false)
    (hex : exec i s = .next t) : Inv t.endEvent := by
  have live := State.mode_ne_halted_of_running hm
  have clear := h.fault.clear live
  cases exec_effect hex with
  | raised f recognized => exact h.endEvent_raiseFatal hw _ _ (fun v hv => absurd hv (recognized v)) nofun
  | stacked sp stack pc instr bound => exact h.endEvent_of_live live clear rfl bound h.fb h.mem hw
  | cleared pc instr => exact h.endEvent_of_live live clear rfl h.sp (blankFramebuffer_wf s.cfg) h.mem hw
  | drew x y n fb collision pc instr size => exact h.endEvent_of_live live clear rfl h.sp (size h.fb) h.mem hw
  | storedDigits x mem pc instr form => exact h.endEvent_of_live live clear rfl h.sp h.fb (form h.mem) hw
  | storedRegs x mem addr pc instr form => exact h.endEvent_of_live live clear rfl h.sp h.fb (form h.mem) hw
  | awaited x pc instr => exact h.endEvent_of_live nofun clear rfl h.sp h.fb h.mem hw
  | _ => exact h.endEvent_of_live live clear rfl h.sp h.fb h.mem hw

/-- The key poll keeps the invariant. -/
theorem Inv.endEvent_keyPoll {s : State} (h : Inv s) (hm : s.mode = .awaitingKey) (hw : s.loadWindow = false) :
    Inv s.keyPoll.endEvent := by
  have live : s.mode ≠ .halted := by rw [hm]; decide
  have clear := h.fault.clear live
  obtain heq | ⟨k, -, heq⟩ := s.keyPoll_cases
  · rw [heq]; exact h.endEvent_of_live live clear rfl h.sp h.fb h.mem hw
  · rw [heq]; exact h.endEvent_of_live nofun clear rfl h.sp h.fb h.mem hw

/-- What an `InstrEvent` makes of an unrecognized word keeps the invariant. -/
theorem Inv.endEvent_unrecognized {s : State} (h : Inv s) (hm : s.mode = .running) (hw : s.loadWindow = false) (w : Word) :
    Inv (s.unrecognized w).endEvent := by
  have live := State.mode_ne_halted_of_running hm
  obtain ⟨hstrict, heq⟩ | heq := s.unrecognized_cases w
  · rw [heq]; exact h.endEvent_raiseFatal hw _ _ (fun _ _ => hstrict) nofun
  · rw [heq]; exact h.endEvent_of_live live (h.fault.clear live) rfl h.sp h.fb h.mem hw

/-- Settles O47: an `InstrEvent` by what it runs, every other event by what it leaves alone. -/
theorem everyStepKeepsTheInvariant : Obligations.EveryStepKeepsTheInvariant := by
  intro s t h hstep
  cases step_cases hstep with
  | idle ev mode heq => subst heq; exact h.atInstr.endEvent_of_same rfl rfl rfl rfl rfl rfl h.mem id
  | polled ev mode heq => subst heq; exact h.atInstr.endEvent_keyPoll mode rfl
  | fetchFailed ev mode fetch heq => subst heq; exact h.atInstr.endEvent_raiseFatal rfl _ _ nofun fun _ => rfl
  | unrecognized ev mode fetch dec heq => subst heq; exact h.atInstr.endEvent_unrecognized mode rfl _
  | executed i u ev mode fetch dec ex heq => subst heq; exact h.atInstr.endEvent_exec mode rfl ex
  | timer ev heq =>
    subst heq
    rw [State.timerBody_eq]
    exact (h.beginEvent s.schedule.tail).endEvent_of_same rfl rfl rfl rfl rfl rfl h.mem id
  | keys k ev heq => subst heq; exact (h.beginEvent s.schedule.tail).endEvent_of_same rfl rfl rfl rfl rfl rfl h.mem id
  | reset ev heq => subst heq; exact inv_endEvent_afterReset h.cfg _ _ _
  | loaded bytes ev window fits heq =>
    subst heq
    have form := State.putBytes_wf (h.beginEvent s.schedule.tail).mem progBase bytes fits
    rw [State.putBytes_eq]
    exact (h.beginEvent s.schedule.tail).endEvent_of_same rfl rfl rfl rfl rfl rfl form id
  | tooLarge bytes ev window big heq =>
    subst heq
    exact (h.beginEvent s.schedule.tail).endEvent_of_same rfl rfl rfl rfl rfl rfl h.mem id

/-! ## VF -/

/-- A register write that changes a register's value is a write of that register. -/
theorem State.eq_of_getV_setV_ne {s : State} {x j : RegIdx} {b : Byte} (h : (s.setV x b).getV j ≠ s.getV j) : j = x := by
  by_contra hne
  exact h (by rw [State.getV_setV, if_neg hne])

/-- Loading `V0 .. Vx` changes VF only with x = 0xF (44_index_memory.md R95). -/
theorem State.eq_vf_of_getV_loadV_ne {s : State} {x : RegIdx} {bytes : List Byte} (count : bytes.length = x.toNat + 1)
    (h : (s.loadV 0 bytes).getV 0xF ≠ s.getV 0xF) : x = 0xF := by
  by_contra hne
  have hx : x.toNat < 15 := by
    have := x.isLt
    have : x.toNat ≠ 15 := fun e => hne (BitVec.eq_of_toNat_eq e)
    omega
  apply h
  rw [State.getV_loadV s 0 bytes (by omega), if_neg (by simp; omega)]

/-- Settles O53, by the fields each instruction writes. -/
theorem vfIsWrittenByTheseOnly : Obligations.VfIsWrittenByTheseOnly := by
  intro i s t hex hne
  cases exec_effect hex with
  | assigned x b pc instr =>
    obtain rfl : 0xF = x := State.eq_of_getV_setV_ne (s := s) hne
    obtain ⟨kk, hi⟩ | ⟨y, hi⟩ | hi := instr
    · exact .inr (.inr (.inl ⟨kk, by tauto⟩))
    · exact .inr (.inr (.inr (.inl ⟨y, hi⟩)))
    · exact .inr (.inr (.inr (.inr (.inl hi))))
  | flagged x b flag pc instr => exact .inl instr
  | sampled x kk b pc instr =>
    obtain rfl : 0xF = x := State.eq_of_getV_setV_ne (s := { s with randDraws := s.randDraws + 1 }) hne
    exact .inr (.inr (.inl ⟨kk, .inr (.inr instr)⟩))
  | drew x y n fb collision pc instr size => exact .inr (.inl ⟨x, y, n, instr⟩)
  | loadedRegs x bytes addr pc instr count =>
    obtain rfl : x = 0xF := State.eq_vf_of_getV_loadV_ne count hne
    exact .inr (.inr (.inr (.inr (.inr instr))))
  | _ => exact absurd rfl hne

/-! ## The mode -/

/-- The transitions of the cadence controller (10_state.md R23) with what each leaves to be seen. -/
inductive Transition (s t : State) : Prop where
  | stays (mode : t.mode = s.mode)
  | reset (ev : s.nextEvent = .reset) (after : t.mode = .running)
  | halts (ev : s.nextEvent = .instr) (mode : s.mode = .running) (after : t.mode = .halted) (code : t.fault.code ≠ 0)
      (faultPc : t.fault.pc = s.pc) (pc : t.pc = s.pc)
  | waits (x : RegIdx) (ev : s.nextEvent = .instr) (mode : s.mode = .running) (after : t.mode = .awaitingKey)
      (dec : decodeWord s.wordAtPc = .ok (.ldVxK x)) (reg : t.waitReg = x)
  | resumes (k : Fin 16) (ev : s.nextEvent = .instr) (mode : s.mode = .awaitingKey) (after : t.mode = .running)
      (pressed : s.keys[k] = true)

/-- A raise records a code other than "no fatal condition" (60_exceptions.md R102). -/
theorem State.raiseFatal_code_ne_zero (s : State) (f : FatalCondition) (w : Option Word) :
    (s.raiseFatal f w).fault.code ≠ 0 := by
  cases f <;> simp [FatalCondition.code]

/-- Every step is one of the transitions. -/
theorem step_transition {s t : State} (h : step s = .next t) : Transition s t := by
  cases step_cases h with
  | idle ev mode heq => subst heq; exact .stays rfl
  | polled ev mode heq =>
    subst heq
    obtain hpoll | ⟨k, hk, hpoll⟩ := s.atInstr.keyPoll_cases
    · rw [hpoll]; exact .stays rfl
    · obtain ⟨hlt, pressed, -⟩ := State.leastPressed_eq_some.1 hk
      rw [hpoll]; exact .resumes ⟨k, hlt⟩ ev mode rfl pressed
  | fetchFailed ev mode fetch heq => subst heq; exact .halts ev mode rfl (State.raiseFatal_code_ne_zero _ _ _) rfl rfl
  | unrecognized ev mode fetch dec heq =>
    subst heq
    obtain ⟨-, hword⟩ | hword := s.atInstr.unrecognized_cases s.wordAtPc
    · rw [hword]; exact .halts ev mode rfl (State.raiseFatal_code_ne_zero _ _ _) rfl rfl
    · rw [hword]; exact .stays rfl
  | executed i u ev mode fetch dec ex heq =>
    subst heq
    cases exec_effect ex with
    | raised f recognized => exact .halts ev mode rfl (State.raiseFatal_code_ne_zero _ _ _) rfl rfl
    | awaited x pc instr => exact .waits x ev mode rfl (instr ▸ dec) rfl
    | _ => exact .stays rfl
  | timer ev heq => subst heq; rw [State.timerBody_eq]; exact .stays rfl
  | keys k ev heq => subst heq; exact .stays rfl
  | reset ev heq => subst heq; exact .reset ev rfl
  | loaded bytes ev window fits heq => subst heq; rw [State.putBytes_eq]; exact .stays rfl
  | tooLarge bytes ev window big heq => subst heq; exact .stays rfl

/-- Settles O54, by the controller's transitions. -/
theorem haltedIsEnteredByFatalAndLeftByReset : Obligations.HaltedIsEnteredByFatalAndLeftByReset := by
  intro s t hstep
  cases step_transition hstep with
  | stays mode => exact ⟨fun hs ht => absurd (mode.trans hs) ht, fun hs ht => absurd (mode.symm.trans ht) hs⟩
  | reset ev after => exact ⟨fun _ _ => ev, fun _ ht => by simp [after] at ht⟩
  | halts ev mode after code faultPc pc =>
    exact ⟨fun _ ht => absurd after ht, fun _ _ => ⟨ev, mode, code, faultPc, pc⟩⟩
  | waits x ev mode after dec reg => exact ⟨fun hs => by simp [mode] at hs, fun _ ht => by simp [after] at ht⟩
  | resumes k ev mode after pressed => exact ⟨fun hs => by simp [mode] at hs, fun _ ht => by simp [after] at ht⟩

/-- Settles O55, by the controller's transitions. -/
theorem keyWaitIsEnteredByFx0AAndLeftByAKey : Obligations.KeyWaitIsEnteredByFx0AAndLeftByAKey := by
  intro s t hstep
  cases step_transition hstep with
  | stays mode => exact ⟨fun hs ht => absurd (mode.symm.trans ht) hs, fun hs ht => absurd (mode.trans hs) ht⟩
  | reset ev after => exact ⟨fun _ ht => by simp [after] at ht, fun _ _ => .inl ev⟩
  | halts ev mode after code faultPc pc =>
    exact ⟨fun _ ht => by simp [after] at ht, fun hs => by simp [mode] at hs⟩
  | waits x ev mode after dec reg =>
    exact ⟨fun _ _ => ⟨ev, mode, x, dec, reg⟩, fun _ ht => absurd after ht⟩
  | resumes k ev mode after pressed => exact ⟨fun hs => absurd mode hs, fun _ _ => .inr ⟨ev, k, pressed⟩⟩

/-! ## Ports and timers -/

/-- The next step executes instruction `i` (30_encoding.md R56). -/
def State.Executes (s : State) (i : Instr) : Prop :=
  s.nextEvent = .instr ∧ s.mode = .running ∧ s.CanFetch ∧ decodeWord s.wordAtPc = .ok i

theorem State.not_executes_of_nextEvent {s : State} {e : Event} (h : s.nextEvent = e) (he : e ≠ .instr) (i : Instr) :
    ¬ s.Executes i := fun ⟨ev, _⟩ => he (h.symm.trans ev)

theorem State.not_executes_of_mode {s : State} {m : Mode} (h : s.mode = m) (hm : m ≠ .running) (i : Instr) :
    ¬ s.Executes i := fun ⟨_, mode, _⟩ => hm (h.symm.trans mode)

/-- What a step that executes no instruction leaves in the ports and the timers. -/
structure QuietStep (s t : State) : Prop where
  executesNothing : ∀ i, ¬ s.Executes i
  frameReady : t.frameReady = false
  cfg : t.cfg = s.cfg
  keys : t.keys = s.keys ∨ ∃ k, s.nextEvent = .keys k
  dt : t.dt = s.dt ∨ (s.nextEvent = .timer ∧ t.dt.toNat + 1 = s.dt.toNat) ∨ s.nextEvent = .reset
  st : t.st = s.st ∨ (s.nextEvent = .timer ∧ t.st.toNat + 1 = s.st.toNat) ∨ s.nextEvent = .reset

/-- A step executes an instruction, or leaves the ports and the timers to its event. -/
theorem step_executes_or_quiet {s t : State} (h : step s = .next t) :
    (∃ i u, s.Executes i ∧ exec i s.atInstr = .next u ∧ t = u.endEvent) ∨ QuietStep s t := by
  cases step_cases h with
  | executed i u ev mode fetch dec ex heq => exact .inl ⟨i, u, ⟨ev, mode, fetch, dec⟩, ex, heq⟩
  | idle ev mode heq =>
    subst heq
    exact .inr ⟨State.not_executes_of_mode mode nofun, rfl, rfl, .inl rfl, .inl rfl, .inl rfl⟩
  | polled ev mode heq =>
    subst heq
    have quiet := State.not_executes_of_mode mode nofun
    obtain hpoll | ⟨k, -, hpoll⟩ := s.atInstr.keyPoll_cases
    · rw [hpoll]; exact .inr ⟨quiet, rfl, rfl, .inl rfl, .inl rfl, .inl rfl⟩
    · rw [hpoll]; exact .inr ⟨quiet, rfl, rfl, .inl rfl, .inl rfl, .inl rfl⟩
  | fetchFailed ev mode fetch heq =>
    subst heq
    exact .inr ⟨fun i ⟨_, _, hf, _⟩ => fetch hf, rfl, rfl, .inl rfl, .inl rfl, .inl rfl⟩
  | unrecognized ev mode fetch dec heq =>
    subst heq
    have quiet : ∀ i, ¬ s.Executes i := fun i ⟨_, _, _, hd⟩ => nomatch dec.symm.trans hd
    obtain ⟨-, hword⟩ | hword := s.atInstr.unrecognized_cases s.wordAtPc
    · rw [hword]; exact .inr ⟨quiet, rfl, rfl, .inl rfl, .inl rfl, .inl rfl⟩
    · rw [hword]; exact .inr ⟨quiet, rfl, rfl, .inl rfl, .inl rfl, .inl rfl⟩
  | timer ev heq =>
    subst heq
    obtain ⟨hdt, hst⟩ := State.timerBody_counts { s with schedule := s.schedule.tail }.beginEvent
    rw [State.timerBody_eq]
    exact .inr ⟨State.not_executes_of_nextEvent ev nofun, rfl, rfl, .inl rfl, hdt.imp_right fun h => .inl ⟨ev, h⟩,
      hst.imp_right fun h => .inl ⟨ev, h⟩⟩
  | keys k ev heq =>
    subst heq
    exact .inr ⟨State.not_executes_of_nextEvent ev nofun, rfl, rfl, .inr ⟨k, ev⟩, .inl rfl, .inl rfl⟩
  | reset ev heq =>
    subst heq
    exact .inr ⟨State.not_executes_of_nextEvent ev nofun, rfl, rfl, .inl rfl, .inr (.inr ev), .inr (.inr ev)⟩
  | loaded bytes ev window fits heq =>
    subst heq
    rw [State.putBytes_eq]
    exact .inr ⟨State.not_executes_of_nextEvent ev nofun, rfl, rfl, .inl rfl, .inl rfl, .inl rfl⟩
  | tooLarge bytes ev window big heq =>
    subst heq
    exact .inr ⟨State.not_executes_of_nextEvent ev nofun, rfl, rfl, .inl rfl, .inl rfl, .inl rfl⟩

/-- Settles O56: no instruction writes either, and of the other events only a `KeysEvent` writes the keys. -/
theorem keysAndConfigAreTheOutsides : Obligations.KeysAndConfigAreTheOutsides := by
  intro s t hstep
  obtain ⟨i, u, -, hex, rfl⟩ | quiet := step_executes_or_quiet hstep
  · have hcfg := exec_cfg hex
    have hkeys := exec_keys hex
    exact ⟨hcfg, fun hne => absurd hkeys hne⟩
  · exact ⟨quiet.cfg, fun hne => quiet.keys.resolve_left hne⟩

/-- Settles O58: an executed instruction pulses as `exec_frameReady` says, and nothing else does. -/
theorem frameReadyPulsesAfterDisplayInstructions : Obligations.FrameReadyPulsesAfterDisplayInstructions := by
  intro s t hstep
  obtain ⟨i, u, ⟨ev, mode, fetch, dec⟩, hex, rfl⟩ | quiet := step_executes_or_quiet hstep
  · have hpulse := exec_frameReady hex (State.mode_ne_halted_of_running mode) rfl
    simpa [ev, mode, fetch, dec] using hpulse
  · constructor
    · intro hpulse
      exact absurd (quiet.frameReady.symm.trans hpulse) (by decide)
    · rintro ⟨ev, mode, fetch, -, dec | ⟨x, y, n, dec⟩⟩
      · exact absurd ⟨ev, mode, fetch, dec⟩ (quiet.executesNothing _)
      · exact absurd ⟨ev, mode, fetch, dec⟩ (quiet.executesNothing _)

/-- Settles O59: of the instructions only Fx15 and Fx18 write a timer. -/
theorem timersChangeOnlyAtTimerEventsOrWrites : Obligations.TimersChangeOnlyAtTimerEventsOrWrites := by
  intro s t hstep
  obtain ⟨i, u, ⟨ev, -, -, dec⟩, hex, rfl⟩ | quiet := step_executes_or_quiet hstep
  · constructor
    · intro hne
      obtain ⟨x, rfl⟩ := exec_dt hex hne
      exact .inr (.inr ⟨ev, x, dec⟩)
    · intro hne
      obtain ⟨x, rfl⟩ := exec_st hex hne
      exact .inr (.inr ⟨ev, x, dec⟩)
  · exact ⟨fun hne => (quiet.dt.resolve_left hne).imp_right .inl, fun hne => (quiet.st.resolve_left hne).imp_right .inl⟩

/-- A step that goes on ends with the setting of the audio trigger (10_state.md R28). -/
theorem step_eq_endEvent {s t : State} (h : step s = .next t) : ∃ u : State, t = u.endEvent := by
  cases step_cases h with
  | _ => exact ⟨_, by assumption⟩

/-- Settles O57. -/
theorem audioFollowsTheSoundTimer : Obligations.AudioFollowsTheSoundTimer := by
  intro s t hstep
  obtain ⟨u, rfl⟩ := step_eq_endEvent hstep
  simp

/-! ## The stack pointer past the stack -/

/-- Settles O24. -/
theorem callAndRetStopWithSpPastTheStack : Obligations.CallAndRetStopWithSpPastTheStack := by
  intro addr s hsp
  constructor
  · rw [exec, execCall, if_neg (by simp only [stackDepth]; omega), dif_neg (by omega)]
  · rw [exec, execRet, if_neg (by omega), dif_neg (by omega)]

end Sys2Proof.Machine
end

section
/-! PROOFS. Memory (20_memory.md): one checked access, that the form of the memory is canonical, and what a store through I leaves
in the cells it names. -/

namespace Sys2Proof.Machine

/-! ## Checked accesses -/

theorem State.memRead_of_lt {s : State} {a : Nat} (h : a < memSize) : s.memRead a = .ok (s.byteAt a) :=
  if_neg (Nat.not_le.2 h)

theorem State.memRead_of_le {s : State} {a : Nat} (h : memSize ≤ a) : s.memRead a = .error (.outOfRangeAddress a) :=
  if_pos h

theorem State.memWrites_of_le {s : State} {a : Nat} {bytes : List Byte} (h : a + bytes.length ≤ memSize) :
    s.memWrites a bytes = .ok (s.putBytes a bytes) := by
  rw [State.memWrites, leastOutOfRange_none h]

/-- Settles O15. -/
theorem memoryAccessIsCheckedAgainst4096 : Obligations.MemoryAccessIsCheckedAgainst4096 := by
  intro s a v hm
  refine ⟨fun hout => ⟨State.memRead_of_le hout, ?_⟩, fun hin => ⟨State.memRead_of_lt hin, s.putByte a v, ?_⟩⟩
  · rw [State.memWrites, List.length_singleton, leastOutOfRange, if_pos (show a ≥ memSize from hout)]
  · have hread := State.byteAt_putByte hm a (b := v)
    refine ⟨State.memWrites_of_le hin, rfl, Memory.put_wf hm hin, ?_, fun j hj => ?_⟩
    · rw [State.memRead_of_lt hin, hread, if_pos rfl]
    · rw [hread, if_neg hj]

/-! ## The canonical form -/

/-- A canonical memory lists exactly the cells that do not read as their reset contents (log 10). -/
theorem State.mem_mem_iff {s : State} (hm : Memory.wf s.cfg s.mem) (p : Host.Cell) :
    p ∈ s.mem ↔ p.1 < memSize ∧ s.byteAt p.1 = p.2 ∧ p.2 ≠ resetByte s.cfg p.1 := by
  obtain ⟨hrising, hcells⟩ := hm
  constructor
  · intro hp
    obtain ⟨haddr, hbyte⟩ := hcells p hp
    exact ⟨haddr, by rw [State.byteAt, Memory.lookup_of_mem hrising hp, Option.getD_some], hbyte⟩
  · rintro ⟨-, hread, hbyte⟩
    rw [State.byteAt] at hread
    cases hlook : Memory.lookup s.mem p.1 with
    | none => rw [hlook] at hread; exact absurd hread.symm hbyte
    | some b => rw [hlook] at hread; cases hread; exact Memory.mem_of_lookup hlook

/-- Cells in strictly rising order are determined by which cells they are. -/
theorem Memory.eq_of_mem_iff {m n : Memory} (hm : m.Pairwise (fun p q => p.1 < q.1)) (hn : n.Pairwise (fun p q => p.1 < q.1))
    (h : ∀ p, p ∈ m ↔ p ∈ n) : m = n := by
  have : Std.Irrefl fun p q : Host.Cell => p.1 < q.1 := ⟨fun p => Nat.lt_irrefl p.1⟩
  have : Std.Antisymm fun p q : Host.Cell => p.1 < q.1 := ⟨fun _ _ hpq hqp => absurd hqp (Nat.lt_asymm hpq)⟩
  exact hm.eq_of_mem_iff hn h

/-- Settles O16. -/
theorem memoriesThatReadAlikeAreEqual : Obligations.MemoriesThatReadAlikeAreEqual := by
  intro s t hcfg hs ht hread
  refine Memory.eq_of_mem_iff hs.1 ht.1 fun p => ?_
  rw [State.mem_mem_iff hs, State.mem_mem_iff ht, hcfg]
  exact and_congr_right fun haddr => by rw [hread p.1 haddr]

/-! ## Stores through I -/

theorem State.byteAt_congr {s t : State} (mem : s.mem = t.mem) (cfg : s.cfg = t.cfg) (a : Nat) : s.byteAt a = t.byteAt a := by
  rw [State.byteAt, State.byteAt, mem, cfg]

/-- Byte `k` of a store is read at the `k`-th cell of its range. -/
theorem State.byteAt_putBytes_add {s : State} (hm : Memory.wf s.cfg s.mem) {a k : Nat} {bytes : List Byte}
    (hin : a + bytes.length ≤ memSize) (hk : k < bytes.length) : (s.putBytes a bytes).byteAt (a + k) = bytes.getD k 0 := by
  rw [State.byteAt_putBytes hm a _ _ hin, if_pos ⟨by omega, by omega⟩, Nat.add_sub_cancel_left]

/-- Fx55 with all its cells in range puts `V0 .. Vx` there (44_index_memory.md R94). -/
theorem exec_ldMemVx_stores {x : RegIdx} {s : State} (hm : Memory.wf s.cfg s.mem) (hin : s.iReg.toNat + x.toNat < memSize) :
    ∃ t, exec (.ldMemVx x) s = .next t ∧ t.mode = s.mode ∧
      ∀ j : RegIdx, j ≤ x → t.byteAt (s.iReg.toNat + j.toNat) = s.getV j := by
  have hlen := s.length_lowRegs x
  have hmax : s.iReg.toNat + (s.lowRegs x).length ≤ memSize := by omega
  refine ⟨((s.putBytes s.iReg.toNat (s.lowRegs x)).addI (x.toNat + 1)).advance, ?_, by simp, fun j hj => ?_⟩
  · rw [exec, execLdMemVx_eq, leastOutOfRange_none (by omega)]
  · have hk : j.toNat < (s.lowRegs x).length := by have := BitVec.le_def.1 hj; omega
    exact (State.byteAt_putBytes_add hm hmax hk).trans (s.getD_lowRegs hj)

/-- Fx33 with all its cells in range puts the decimal digits there (44_index_memory.md R93). -/
theorem exec_ldBVx_stores {x : RegIdx} {s : State} (hm : Memory.wf s.cfg s.mem) (hin : s.iReg.toNat + 2 < memSize) :
    ∃ t, exec (.ldBVx x) s = .next t ∧ t.mode = s.mode ∧
      ∀ k < 3, t.byteAt (s.iReg.toNat + k) = (bcdDigits (s.getV x)).getD k 0 := by
  refine ⟨(s.putBytes s.iReg.toNat (bcdDigits (s.getV x))).advance, ?_, by simp, fun k hk => ?_⟩
  · rw [exec, execLdBVx_eq, leastOutOfRange_none (by omega)]
  · simpa using State.byteAt_putBytes_add hm (bytes := bcdDigits (s.getV x)) hin hk

theorem trunc8_toNat_of_lt {n : Nat} (h : n < 256) : (trunc8 n).toNat = n := Nat.mod_eq_of_lt h

/-- Settles O60. -/
theorem fetchSeesStoredBytes : Obligations.FetchSeesStoredBytes := by
  intro x s hm hin hx
  obtain ⟨t, hexec, -, hstored⟩ := exec_ldMemVx_stores hm hin
  refine ⟨t, hexec, fun u mem cfg hpc => ?_⟩
  have hfetch : u.CanFetch := by simp only [State.CanFetch, hpc, memSize]; omega
  have hhi : t.byteAt s.iReg.toNat = s.getV 0 := hstored 0 (BitVec.le_def.2 (Nat.zero_le _))
  have hlo : t.byteAt (s.iReg.toNat + 1) = s.getV 1 := hstored 1 (BitVec.le_def.2 hx)
  rw [State.fetch_eq_ok hfetch, State.wordAtPc, hpc, State.byteAt_congr mem cfg, State.byteAt_congr mem cfg, hhi, hlo]

/-- Settles O42. -/
theorem glyphCellsCanBeWritten : Obligations.GlyphCellsCanBeWritten := by
  intro x s hm
  constructor
  · intro hin
    exact exec_ldMemVx_stores hm (by simp only [memSize]; omega)
  · intro hin
    obtain ⟨t, hexec, hmode, hstored⟩ := exec_ldBVx_stores (x := x) hm (by simp only [memSize]; omega)
    have hundreds : t.byteAt s.iReg.toNat = trunc8 ((s.getV x).toNat / 100) := hstored 0 (by decide)
    have tens : t.byteAt (s.iReg.toNat + 1) = trunc8 ((s.getV x).toNat / 10 % 10) := hstored 1 (by decide)
    have ones : t.byteAt (s.iReg.toNat + 2) = trunc8 ((s.getV x).toNat % 10) := hstored 2 (by decide)
    have hbyte := (s.getV x).isLt
    refine ⟨t, hexec, hmode, ?_⟩
    rw [hundreds, tens, ones]
    exact ⟨trunc8_toNat_of_lt (by omega), trunc8_toNat_of_lt (by omega), trunc8_toNat_of_lt (by omega)⟩

end Sys2Proof.Machine
end

section
/-! PROOFS. The encoding (30_encoding.md): the round trip through the two bytes of a word, the words that no pattern of R50
matches, and the rows of the opcode table. -/

namespace Sys2Proof

/-! ## Decoding what was encoded -/

/-- The decoder reads every operand of an encoding (30_encoding.md R47, R50): the family nibble and the selector choose the arm,
and the arm's fields are the operands. -/
theorem decodeWord_encode {i : Instr} (h : i.WellFormed) : decodeWord (encode i) = .ok i := by
  cases i with
  | cls | ret => rfl
  | sys addr =>
    obtain ⟨hcls, hret⟩ : addr ≠ 0x0E0#12 ∧ addr ≠ 0x0EE#12 := by
      simpa [Instr.WellFormed, Instr.wellFormed, sysExcluded] using h
    have notCls : fmtNNN 0x0#4 addr ≠ 0x00E0#16 := fun e =>
      hcls ((fieldAddr_fmtNNN 0x0#4 addr).symm.trans (congrArg fieldAddr e))
    have notRet : fmtNNN 0x0#4 addr ≠ 0x00EE#16 := fun e =>
      hret ((fieldAddr_fmtNNN 0x0#4 addr).symm.trans (congrArg fieldAddr e))
    simp [decodeWord, encode, decode0, notCls, notRet]
  | ldVxVy _ _ | orVxVy _ _ | andVxVy _ _ | xorVxVy _ _ | addVxVy _ _ | sub _ _ | shr _ _ | subn _ _ | shl _ _ =>
    simp [decodeWord, encode, decode8]
  | skp _ | sknp _ => simp [decodeWord, encode, decodeE]
  | ldVxDt _ | ldVxK _ | ldDtVx _ | ldStVx _ | addIVx _ | ldFVx _ | ldBVx _ | ldMemVx _ | ldVxMem _ =>
    simp [decodeWord, encode, decodeF]
  | _ => simp [decodeWord, encode]

/-- The decoder takes the two bytes of a word and leaves the rest (30_encoding.md R46). -/
theorem decode_bytesOfWord {w : Word} {i : Instr} (h : decodeWord w = .ok i) (rest : List Byte) :
    decode (bytesOfWord w ++ rest) = .ok (i, rest) := by
  simp [bytesOfWord, decode, wordOfBytes_bytesOfWord, h]

/-- Settles O1. -/
theorem decodeOfEncodeIsTheInstruction : Obligations.DecodeOfEncodeIsTheInstruction :=
  fun _ rest h => decode_bytesOfWord (decodeWord_encode h) rest

/-! ## The two answers of the decoder -/

/-- The words that no pattern matches, family by family (30_encoding.md R51). -/
abbrev Unrecognized (w : Word) : Prop :=
  ((fieldOp w = 0x5#4 ∨ fieldOp w = 0x9#4) ∧ fieldN w ≠ 0x0#4) ∨
  (fieldOp w = 0x8#4 ∧ fieldN w ∈ [0x8#4, 0x9#4, 0xA#4, 0xB#4, 0xC#4, 0xD#4, 0xF#4]) ∨
  (fieldOp w = 0xE#4 ∧ fieldKk w ∉ [0x9E#8, 0xA1#8]) ∨
  (fieldOp w = 0xF#4 ∧ fieldKk w ∉ [0x07#8, 0x0A#8, 0x15#8, 0x18#8, 0x1E#8, 0x29#8, 0x33#8, 0x55#8, 0x65#8])

/-- What an answer of the decoder says of the word: it is the encoding of the well-formed instruction answered, or no
pattern's. -/
def Explains (w : Word) : Except DecodeError Instr → Prop
  | .ok i => encode i = w ∧ i.WellFormed
  | .error e => e = .unrecognized w ∧ Unrecognized w

variable {w : Word}

/-- Family 0 (30_encoding.md R50): what is neither of the two exact words is a well-formed SYS. -/
theorem decode0_explains (hop : fieldOp w = 0x0#4) : Explains w (.ok (decode0 w)) := by
  have hw : fmtNNN 0x0#4 (fieldAddr w) = w := hop ▸ fmtNNN_fields w
  unfold decode0
  split_ifs with hcls hret
  · exact ⟨hcls.symm, rfl⟩
  · exact ⟨hret.symm, rfl⟩
  · refine ⟨hw, ?_⟩
    have notCls : fieldAddr w ≠ 0x0E0#12 := fun e => hcls (by rw [← hw, e]; rfl)
    have notRet : fieldAddr w ≠ 0x0EE#12 := fun e => hret (by rw [← hw, e]; rfl)
    simp [Instr.WellFormed, Instr.wellFormed, sysExcluded, notCls, notRet]

theorem decode8_explains (hop : fieldOp w = 0x8#4) : Explains w (decode8 w (fieldX w) (fieldY w)) := by
  have hw : fmtXYN 0x8#4 (fieldX w) (fieldY w) (fieldN w) = w := hop ▸ fmtXYN_fields w
  unfold decode8
  split
  case h_10 =>
    refine ⟨rfl, .inr (.inl ⟨hop, ?_⟩)⟩
    simp only [List.mem_cons, List.not_mem_nil, or_false, ← BitVec.toNat_inj, BitVec.toNat_ofNat, imp_false] at *
    omega
  all_goals
    rename_i hn
    exact ⟨by rw [eq_ofNat_of_toNat_eq hn] at hw; exact hw, rfl⟩

theorem decodeE_explains (hop : fieldOp w = 0xE#4) : Explains w (decodeE w (fieldX w)) := by
  have hw : fmtX 0xE#4 (fieldX w) (fieldKk w) = w := hop ▸ fmtXKK_fields w
  unfold decodeE
  split
  case h_3 =>
    have hsel : fieldKk w ∉ [0x9E#8, 0xA1#8] := by simp_all [← BitVec.toNat_inj]
    exact ⟨rfl, .inr (.inr (.inl ⟨hop, hsel⟩))⟩
  all_goals
    rename_i hkk
    exact ⟨by rw [eq_ofNat_of_toNat_eq hkk] at hw; exact hw, rfl⟩

theorem decodeF_explains (hop : fieldOp w = 0xF#4) : Explains w (decodeF w (fieldX w)) := by
  have hw : fmtX 0xF#4 (fieldX w) (fieldKk w) = w := hop ▸ fmtXKK_fields w
  unfold decodeF
  split
  case h_10 =>
    exact ⟨rfl, .inr (.inr (.inr ⟨hop, by simp_all [← BitVec.toNat_inj]⟩))⟩
  all_goals
    rename_i hkk
    exact ⟨by rw [eq_ofNat_of_toNat_eq hkk] at hw; exact hw, rfl⟩

/-- The families 5 and 9, whose words have 0 as the last nibble. -/
theorem zeroNibble_explains (h59 : fieldOp w = 0x5#4 ∨ fieldOp w = 0x9#4) {i : Instr} (wf : i.WellFormed)
    (hi : encode i = fmtXYN (fieldOp w) (fieldX w) (fieldY w) 0x0#4) :
    Explains w (if fieldN w = 0#4 then .ok i else .error (.unrecognized w)) := by
  split_ifs with hn
  · exact ⟨by rw [hi, ← hn, fmtXYN_fields], wf⟩
  · exact ⟨rfl, .inl ⟨h59, hn⟩⟩

/-- Every answer of the decoder, by the families of 30_encoding.md R50. -/
theorem decodeWord_explains (w : Word) : Explains w (decodeWord w) := by
  have hNNN := fmtNNN_fields w
  have hXKK := fmtXKK_fields w
  have hXYN := fmtXYN_fields w
  unfold decodeWord
  split
  case h_17 =>
    simp only [imp_false] at *
    omega
  all_goals
    rename_i hop
    replace hop := eq_ofNat_of_toNat_eq hop
    rw [hop] at hNNN hXKK hXYN
  case h_1 => exact decode0_explains hop
  case h_6 => exact zeroNibble_explains (.inl hop) rfl (by rw [hop]; rfl)
  case h_9 => exact decode8_explains hop
  case h_10 => exact zeroNibble_explains (.inr hop) rfl (by rw [hop]; rfl)
  case h_15 => exact decodeE_explains hop
  case h_16 => exact decodeF_explains hop
  case h_2 | h_3 | h_11 | h_12 => exact ⟨hNNN, rfl⟩
  case h_14 => exact ⟨hXYN, rfl⟩
  all_goals exact ⟨hXKK, rfl⟩

/-- Settles O2. -/
theorem encodeOfDecodedIsTheWord : Obligations.EncodeOfDecodedIsTheWord := by
  intro w i h
  have hw := decodeWord_explains w
  rwa [h] at hw

/-- No encoding is a word of 30_encoding.md R51. -/
theorem not_unrecognized_encode (i : Instr) : ¬ Unrecognized (encode i) := by
  cases i with
  | cls | ret => decide
  | _ => simp [encode, Unrecognized]

/-- Settles O4. -/
theorem unrecognizedWordsByFamily : Obligations.UnrecognizedWordsByFamily := by
  intro w
  have hw := decodeWord_explains w
  constructor
  · intro h
    rw [h] at hw
    exact hw.2
  · intro hun
    cases h : decodeWord w with
    | ok i => rw [h] at hw; exact absurd hun (hw.1 ▸ not_unrecognized_encode i)
    | error e => rw [h] at hw; rw [hw.1]

/-! ## The opcode table -/

open Laws.EncodingHasItsRow in
/-- The word of every instruction matches a row of the table. -/
theorem encodingHasItsRow : ∀ i, Statement i
  | .cls => cls
  | .ret => ret
  | .sys _ => sys _
  | .jp _ => jp _
  | .call _ => call _
  | .seVxKk _ _ => seVxKk _ _
  | .sneVxKk _ _ => sneVxKk _ _
  | .seVxVy _ _ => seVxVy _ _
  | .ldVxKk _ _ => ldVxKk _ _
  | .addVxKk _ _ => addVxKk _ _
  | .ldVxVy _ _ => ldVxVy _ _
  | .orVxVy _ _ => orVxVy _ _
  | .andVxVy _ _ => andVxVy _ _
  | .xorVxVy _ _ => xorVxVy _ _
  | .addVxVy _ _ => addVxVy _ _
  | .sub _ _ => sub _ _
  | .shr _ _ => shr _ _
  | .subn _ _ => subn _ _
  | .shl _ _ => shl _ _
  | .sneVxVy _ _ => sneVxVy _ _
  | .ldI _ => ldI _
  | .jpV0 _ => jpV0 _
  | .rnd _ _ => rnd _ _
  | .drw _ _ _ => drw _ _ _
  | .skp _ => skp _
  | .sknp _ => sknp _
  | .ldVxDt _ => ldVxDt _
  | .ldVxK _ => ldVxK _
  | .ldDtVx _ => ldDtVx _
  | .ldStVx _ => ldStVx _
  | .addIVx _ => addIVx _
  | .ldFVx _ => ldFVx _
  | .ldBVx _ => ldBVx _
  | .ldMemVx _ => ldMemVx _
  | .ldVxMem _ => ldVxMem _

/-! ### What a row's mask keeps -/

theorem fieldOp_and (w m : Word) : fieldOp (w &&& m) = fieldOp w &&& fieldOp m := BitVec.extractLsb'_and
theorem fieldN_and (w m : Word) : fieldN (w &&& m) = fieldN w &&& fieldN m := BitVec.extractLsb'_and
theorem fieldKk_and (w m : Word) : fieldKk (w &&& m) = fieldKk w &&& fieldKk m := BitVec.extractLsb'_and

/-- Whether a word is one of 30_encoding.md R51's is told by the family nibble and, in the families with a selector, by the
selector. -/
theorem Unrecognized.and {m : Word} (h : Unrecognized w) (hop : fieldOp m = 0xF#4)
    (hn : fieldOp w ∈ [0x5#4, 0x8#4, 0x9#4] → fieldN m = 0xF#4) (hkk : fieldOp w ∈ [0xE#4, 0xF#4] → fieldKk m = 0xFF#8) :
    Unrecognized (w &&& m) := by
  have keepsOp : fieldOp (w &&& m) = fieldOp w := by rw [fieldOp_and, hop, Laws.and_ones4]
  have keepsN : fieldOp w ∈ [0x5#4, 0x8#4, 0x9#4] → fieldN (w &&& m) = fieldN w := fun h => by
    rw [fieldN_and, hn h, Laws.and_ones4]
  have keepsKk : fieldOp w ∈ [0xE#4, 0xF#4] → fieldKk (w &&& m) = fieldKk w := fun h => by
    rw [fieldKk_and, hkk h, Laws.and_ones8]
  obtain ⟨op, sel⟩ | ⟨op, sel⟩ | ⟨op, sel⟩ | ⟨op, sel⟩ := h
  · exact .inl ⟨by rwa [keepsOp], by rwa [keepsN (by rcases op with op | op <;> simp [op])]⟩
  · exact .inr (.inl ⟨by rwa [keepsOp], by rwa [keepsN (by simp [op])]⟩)
  · exact .inr (.inr (.inl ⟨by rwa [keepsOp], by rwa [keepsKk (by simp [op])]⟩))
  · exact .inr (.inr (.inr ⟨by rwa [keepsOp], by rwa [keepsKk (by simp [op])]⟩))

/-- The mask of a row holds the bits that tell, and the row's own word is recognized. -/
theorem tableRows_select : ∀ row ∈ tableRows,
    fieldOp row.1 = 0xF#4 ∧ (fieldOp row.2 ∈ [0x5#4, 0x8#4, 0x9#4] → fieldN row.1 = 0xF#4) ∧
    (fieldOp row.2 ∈ [0xE#4, 0xF#4] → fieldKk row.1 = 0xFF#8) ∧ ¬ Unrecognized row.2 := by decide

theorem not_unrecognized_of_row {row : Word × Word} (hrow : row ∈ tableRows) (hw : w &&& row.1 = row.2) :
    ¬ Unrecognized w := by
  obtain ⟨hop, hn, hkk, hrec⟩ := tableRows_select row hrow
  have op : fieldOp row.2 = fieldOp w := by rw [← hw, fieldOp_and, hop, Laws.and_ones4]
  rw [op] at hn hkk
  exact fun h => hrec (hw ▸ h.and hop hn hkk)

/-- A word is recognized exactly when it matches a row (30_encoding.md R50). -/
theorem decodeWord_ok_iff_row (w : Word) : (∃ i, decodeWord w = .ok i) ↔ ∃ row ∈ tableRows, w &&& row.1 = row.2 := by
  constructor
  · rintro ⟨i, h⟩
    obtain ⟨hmem, hmask⟩ := encodingHasItsRow i
    obtain ⟨hw, -⟩ := encodeOfDecodedIsTheWord w i h
    exact ⟨_, hmem, hw ▸ hmask⟩
  · rintro ⟨row, hrow, hmatch⟩
    cases h : decodeWord w with
    | ok i => exact ⟨i, rfl⟩
    | error e =>
      have hw := decodeWord_explains w
      rw [h] at hw
      exact absurd hw.2 (not_unrecognized_of_row hrow hmatch)

/-- Settles O3: each pattern is the encoding of its instruction. -/
theorem patternsSelectTheInstruction : Obligations.PatternsSelectTheInstruction := by
  have dec (i : Instr) (h : i.WellFormed) : decodeWord (encode i) = .ok i := decodeWord_encode h
  refine ⟨⟨rfl, rfl⟩, fun addr hcls hret => dec (.sys addr) ?_, fun addr => ?_, fun x kk => ?_, fun x y => ?_,
    fun x y n => dec (.drw x y n) rfl, fun x => ?_, decodeWord_ok_iff_row⟩
  · simp [Instr.WellFormed, Instr.wellFormed, sysExcluded, hcls, hret]
  · exact ⟨dec (.jp addr) rfl, dec (.call addr) rfl, dec (.ldI addr) rfl, dec (.jpV0 addr) rfl⟩
  · exact ⟨dec (.seVxKk x kk) rfl, dec (.sneVxKk x kk) rfl, dec (.ldVxKk x kk) rfl, dec (.addVxKk x kk) rfl,
      dec (.rnd x kk) rfl⟩
  · exact ⟨dec (.seVxVy x y) rfl, dec (.ldVxVy x y) rfl, dec (.orVxVy x y) rfl, dec (.andVxVy x y) rfl,
      dec (.xorVxVy x y) rfl, dec (.addVxVy x y) rfl, dec (.sub x y) rfl, dec (.shr x y) rfl, dec (.subn x y) rfl,
      dec (.shl x y) rfl, dec (.sneVxVy x y) rfl⟩
  · exact ⟨dec (.skp x) rfl, dec (.sknp x) rfl, dec (.ldVxDt x) rfl, dec (.ldVxK x) rfl, dec (.ldDtVx x) rfl,
      dec (.ldStVx x) rfl, dec (.addIVx x) rfl, dec (.ldFVx x) rfl, dec (.ldBVx x) rfl, dec (.ldMemVx x) rfl,
      dec (.ldVxMem x) rfl⟩

/-- Settles O5. -/
theorem writtenOutWordsDecode : Obligations.WrittenOutWordsDecode := by
  unfold Obligations.WrittenOutWordsDecode
  decide

end Sys2Proof
end

section
/-! PROOFS. What an `InstrEvent` runs in mode Running (30_encoding.md R52 to R56), and which state an instruction writes (R57). -/

namespace Sys2Proof.Machine

/-! ## One step -/

/-- Settles O6. -/
theorem stepRunsTheDecodedInstruction : Obligations.StepRunsTheDecodedInstruction := by
  intro s i ev mode fetch dec
  rw [step_running ev mode fetch dec]
  cases exec i s.atInstr <;> rfl

/-- How a step ends whose fetch fails (30_encoding.md R54). -/
theorem step_fetchFailed {s : State} (ev : s.InstrNext) (mode : s.mode = .running) (fetch : ¬ s.CanFetch) :
    step s = .next (s.atInstr.raiseFatal (.outOfRangeAddress (max s.pc.toNat memSize)) none).endEvent := by
  rw [step_instr ev, State.atInstr_instrBody_running mode, State.runInstr, State.atInstr_fetch, State.fetch_eq_error fetch]
  rfl

/-- How a step ends whose word no pattern matches (30_encoding.md R52). -/
theorem step_unrecognized {s : State} (ev : s.InstrNext) (mode : s.mode = .running) (fetch : s.CanFetch)
    (dec : decodeWord s.wordAtPc = .error (.unrecognized s.wordAtPc)) :
    step s = .next (s.atInstr.unrecognized s.wordAtPc).endEvent := by
  rw [step_instr ev, State.atInstr_instrBody_running mode, State.runInstr, State.atInstr_fetch, State.fetch_eq_ok fetch]
  simp only [dec, endOutcome_next]

/-- The event ends with the audio off after a fatal condition (10_state.md R28). -/
theorem State.endEvent_raiseFatal (s : State) (f : FatalCondition) (w : Option Word) :
    (s.raiseFatal f w).endEvent = { s.raiseFatal f w with audioOn := false } := by
  simp [State.endEvent]

/-- The event ends with the audio as ST says in a live block (10_state.md R28). -/
theorem State.endEvent_of_live {s : State} (live : s.mode ≠ .halted) :
    s.endEvent = { s with audioOn := decide (s.st ≠ 0) } := by
  simp [State.endEvent, live]

/-- The first byte a failed fetch cannot read, as the record holds it (30_encoding.md R54, decision D33). -/
theorem trunc16_max_pc (pc : Word) : trunc16 (max pc.toNat memSize) = if pc.toNat ≥ 4096 then pc else 0x1000 := by
  split_ifs with h
  · rw [memSize, max_eq_left h, trunc16, BitVec.ofNat_toNat, BitVec.setWidth_eq]
  · rw [memSize, max_eq_right (Nat.le_of_not_ge h)]; rfl

/-- Settles O7. -/
theorem fetchPastTheTopHalts : Obligations.FetchPastTheTopHalts := by
  intro s ev mode fetch
  rw [step_fetchFailed ev mode fetch, State.endEvent_raiseFatal, ← trunc16_max_pc]
  rfl

/-- Settles O8. -/
theorem unrecognizedWordFollowsTheDecodePolicy : Obligations.UnrecognizedWordFollowsTheDecodePolicy := by
  intro s ev mode fetch dec
  rw [step_unrecognized ev mode fetch dec]
  constructor
  · intro lax
    have skipped : s.atInstr.unrecognized s.wordAtPc = s.atInstr.advance := if_neg (ne_true_of_eq_false lax)
    have live : s.atInstr.advance.mode ≠ .halted := State.mode_ne_halted_of_running mode
    rw [skipped, State.endEvent_of_live live]
    rfl
  · intro strict
    have fatal : s.atInstr.unrecognized s.wordAtPc =
        s.atInstr.raiseFatal (.unrecognizedOpcode s.wordAtPc) (some s.wordAtPc) := if_pos strict
    rw [fatal, State.endEvent_raiseFatal]
    rfl

/-! ## Which instructions write which state -/

section
variable {i : Instr} {s t : State} (h : exec i s = .next t)
include h

/-- Only 00EE and 2nnn write SP and the stack (10_state.md R19, R20). -/
theorem exec_stack (hne : t.sp ≠ s.sp ∨ t.stack ≠ s.stack) : i = .ret ∨ ∃ addr, i = .call addr := by
  cases exec_effect h with
  | stacked sp stack pc instr bound => exact instr
  | _ => exact absurd hne (by simp)

/-- Only Annn, Fx1E, Fx29, Fx55 and Fx65 write I (10_state.md R21). -/
theorem exec_iReg (hne : t.iReg ≠ s.iReg) :
    (∃ addr, i = .ldI addr) ∨ ∃ x, i = .addIVx x ∨ i = .ldFVx x ∨ i = .ldMemVx x ∨ i = .ldVxMem x := by
  cases exec_effect h with
  | indexed addr pc instr => exact instr.imp_right fun ⟨x, hx⟩ => ⟨x, hx.imp_right .inl⟩
  | storedRegs x mem addr pc instr form => exact .inr ⟨x, .inr (.inr (.inl instr))⟩
  | loadedRegs x bytes addr pc instr count => exact .inr ⟨x, .inr (.inr (.inr instr))⟩
  | _ => exact absurd rfl hne

/-- Only Fx0A writes `wait_reg` (10_state.md R24). -/
theorem exec_waitReg (hne : t.waitReg ≠ s.waitReg) : ∃ x, i = .ldVxK x := by
  cases exec_effect h with
  | awaited x pc instr => exact ⟨x, instr⟩
  | _ => exact absurd rfl hne

/-- Only 00E0 and Dxyn write the framebuffer and pulse (10_state.md R26, R30). -/
theorem exec_display (hne : t.fb ≠ s.fb ∨ t.frameReady ≠ s.frameReady) : i = .cls ∨ ∃ x y n, i = .drw x y n := by
  cases exec_effect h with
  | cleared pc instr => exact .inl instr
  | drew x y n fb collision pc instr size => exact .inr ⟨x, y, n, instr⟩
  | _ => exact absurd hne (by simp)

/-- Only Fx33 and Fx55 write memory (20_memory.md R41). -/
theorem exec_mem (hne : t.mem ≠ s.mem) : ∃ x, i = .ldBVx x ∨ i = .ldMemVx x := by
  cases exec_effect h with
  | storedDigits x mem pc instr form => exact ⟨x, .inl instr⟩
  | storedRegs x mem addr pc instr form => exact ⟨x, .inr instr⟩
  | _ => exact absurd rfl hne

/-- Only Cxkk draws a random byte (10_state.md R29). -/
theorem exec_randDraws (hne : t.randDraws ≠ s.randDraws) : ∃ x kk, i = .rnd x kk := by
  cases exec_effect h with
  | sampled x kk b pc instr => exact ⟨x, kk, instr⟩
  | _ => exact absurd rfl hne

/-- The fault record is written only with the entry to Halted (60_exceptions.md R103). -/
theorem exec_fault (hne : t.fault ≠ s.fault) : t.mode = .halted := by
  cases exec_effect h with
  | raised f recognized => rfl
  | _ => exact absurd rfl hne

/-- No instruction writes what is set around an event (log 1, 6, 7, 17). -/
theorem exec_eventFields : t.audioOn = s.audioOn ∧ t.schedule = s.schedule ∧ t.loadWindow = s.loadWindow ∧
    t.loadTooLarge = s.loadTooLarge := by
  cases exec_effect h <;> exact ⟨rfl, rfl, rfl, rfl⟩

end

/-- Settles O52. -/
theorem instructionsWriteOnlyTheirState : Obligations.InstructionsWriteOnlyTheirState := fun _ _ _ h =>
  ⟨exec_stack h, exec_iReg h, exec_dt h, exec_st h, exec_waitReg h, exec_display h, exec_mem h, exec_randDraws h,
    exec_fault h, exec_keys h, exec_cfg h, exec_eventFields h⟩

end Sys2Proof.Machine
end

section
/-! PROOFS. The display instructions (40_display.md): a sprite as the set of pixels it covers, what one draw and a second one
over it do to the grid, and from these 00E0 and Dxyn. -/

namespace Sys2Proof.Machine

/-! ## Grids -/

/-- Two grids of one size are equal if they have the same pixels. -/
theorem Framebuffer.eq_of_pixel_eq {c : Config} {a b : Framebuffer} (ha : Framebuffer.wf c a) (hb : Framebuffer.wf c b)
    (h : ∀ row col, a.pixel row col = b.pixel row col) : a = b := by
  obtain ⟨halen, haline⟩ := ha
  obtain ⟨hblen, hbline⟩ := hb
  refine List.ext_getElem (halen.trans hblen.symm) fun row hra hrb => ?_
  have hla := haline _ (List.getElem_mem hra)
  have hlb := hbline _ (List.getElem_mem hrb)
  refine List.ext_getElem (hla.trans hlb.symm) fun col hca hcb => ?_
  simpa only [Framebuffer.pixel, List.getD_eq_getElem _ _ hra, List.getD_eq_getElem _ _ hrb, List.getD_eq_getElem _ _ hca,
    List.getD_eq_getElem _ _ hcb] using h row col

/-- Settles O17. -/
theorem clsClearsEveryPixel : Obligations.ClsClearsEveryPixel := fun s =>
  ⟨rfl, _, rfl, rfl, blankFramebuffer_wf s.cfg, blankFramebuffer_pixel s.cfg⟩

/-! ## The pixels a sprite covers -/

/-- The covered pixels are those a draw flips. -/
theorem mem_spriteCells_iff_covers {cfg : Config} {bytes : List Byte} {x0 y0 row col : Nat} :
    (row, col) ∈ spriteCells cfg x0 y0 0 bytes ↔ SpriteCovers cfg bytes x0 y0 row col := by
  simp only [mem_spriteCells, Nat.zero_add, SpriteCovers, spriteBit]

/-- Both coordinates wrap, so no 1 bit falls off a grid at least as large as the sprite (40_display.md R60). -/
theorem lt_of_mem_spriteCells {cfg : Config} {bytes : List Byte} {x0 y0 : Nat} (hW : 8 ≤ cfg.fbW)
    (hH : bytes.length ≤ cfg.fbH) : ∀ p ∈ spriteCells cfg x0 y0 0 bytes, p.1 < cfg.fbH ∧ p.2 < cfg.fbW := by
  intro p hp
  obtain ⟨k, c, hk, -, -, hrow, hcol⟩ := mem_spriteCells.1 hp
  exact ⟨hrow ▸ Nat.mod_lt _ (by omega), hcol ▸ Nat.mod_lt _ (by omega)⟩

/-! ## Drawing a sprite, once and again -/

/-- What a draw of the sprite `bytes` at `(x0, y0)` makes of a grid, no collision having occurred before (40_display.md R61). -/
def drawSprite (cfg : Config) (x0 y0 : Nat) (bytes : List Byte) (fb : Framebuffer) : Drawing :=
  drawRows cfg x0 y0 0 { fb := fb, collision := false } bytes

theorem drawSprite_wf {cfg : Config} {fb : Framebuffer} (hfb : Framebuffer.wf cfg fb) (x0 y0 : Nat) (bytes : List Byte) :
    Framebuffer.wf cfg (drawSprite cfg x0 y0 bytes fb).fb :=
  drawRows_wf (d := { fb := fb, collision := false }) hfb x0 y0 0 bytes

section
variable {cfg : Config} {fb : Framebuffer} {bytes : List Byte} {x0 y0 : Nat}
variable (hfb : Framebuffer.wf cfg fb) (hW : 8 ≤ cfg.fbW) (hH : bytes.length ≤ cfg.fbH)
include hfb hW hH

/-- No pixel is flipped twice, so each is judged as it was before the draw. -/
theorem drawSprite_flips_cells :
    (∀ row col, (drawSprite cfg x0 y0 bytes fb).fb.pixel row col =
      (fb.pixel row col ^^ decide ((row, col) ∈ spriteCells cfg x0 y0 0 bytes))) ∧
    (drawSprite cfg x0 y0 bytes fb).collision = (spriteCells cfg x0 y0 0 bytes).any fun p => fb.pixel p.1 p.2 := by
  rw [drawSprite, drawRows_eq_foldl]
  exact foldl_plot (d := { fb := fb, collision := false }) hfb (lt_of_mem_spriteCells hW hH)
    (nodup_spriteCells x0 y0 hW (by omega))

/-- The grid is XORed with the sprite (40_display.md R61). -/
theorem pixel_drawSprite (row col : Nat) :
    (drawSprite cfg x0 y0 bytes fb).fb.pixel row col = true ↔
      ¬ (fb.pixel row col = true ↔ SpriteCovers cfg bytes x0 y0 row col) := by
  rw [drawSprite_flips_cells hfb hW hH |>.1, bne_iff_ne, ne_eq, Bool.eq_iff_iff, decide_eq_true_iff, mem_spriteCells_iff_covers]

/-- There is a collision exactly if the sprite covers a lit pixel. -/
theorem collision_drawSprite :
    (drawSprite cfg x0 y0 bytes fb).collision = true ↔
      ∃ row col, SpriteCovers cfg bytes x0 y0 row col ∧ fb.pixel row col = true := by
  rw [drawSprite_flips_cells hfb hW hH |>.2, List.any_eq_true, Prod.exists]
  simp only [mem_spriteCells_iff_covers]

/-- XOR with the same sprite twice is the identity. -/
theorem drawSprite_twice_fb :
    (drawSprite cfg x0 y0 bytes (drawSprite cfg x0 y0 bytes fb).fb).fb = fb := by
  have once := drawSprite_wf hfb x0 y0 bytes
  refine Framebuffer.eq_of_pixel_eq (drawSprite_wf once x0 y0 bytes) hfb fun row col => ?_
  rw [Bool.eq_iff_iff, pixel_drawSprite once hW hH, pixel_drawSprite hfb hW hH]
  tauto

/-- The second draw erases what the first one lit. -/
theorem drawSprite_twice_collision :
    (drawSprite cfg x0 y0 bytes (drawSprite cfg x0 y0 bytes fb).fb).collision = true ↔
      ∃ row col, SpriteCovers cfg bytes x0 y0 row col ∧ fb.pixel row col = false := by
  rw [collision_drawSprite (drawSprite_wf hfb x0 y0 bytes) hW hH]
  refine exists_congr fun row => exists_congr fun col => and_congr_right fun hcov => ?_
  rw [pixel_drawSprite hfb hW hH, iff_true_right hcov, Bool.not_eq_true]

end

/-! ## Dxyn -/

/-- The sprite that Dxyn reads (40_display.md R61). -/
def State.sprite (s : State) (n : Nibble) : List Byte := (List.range n.toNat).map fun r => s.byteAt (s.iReg.toNat + r)

theorem State.length_sprite_le (s : State) (n : Nibble) : (s.sprite n).length ≤ 15 := by
  have := n.isLt
  simp only [State.sprite, List.length_map, List.length_range]
  omega

/-- What Dxyn makes of the grid once its sprite is read. -/
def State.drawing (s : State) (x y : RegIdx) (n : Nibble) : Drawing :=
  drawSprite s.cfg (s.getV x).toNat (s.getV y).toNat (s.sprite n) s.fb

/-- The next state of a Dxyn that does not halt. -/
def State.drawn (s : State) (x y : RegIdx) (n : Nibble) : State :=
  { s with
    fb := (s.drawing x y n).fb, v := s.v.set 0xF (flagByte (s.drawing x y n).collision)
    pc := s.pcPlus 2, frameReady := true }

/-- Dxyn with its sprite in memory, or with an empty one wherever I points, draws (40_display.md R61). -/
theorem exec_drw_of_inRange {s : State} {n : Nibble} (hin : n = 0 ∨ s.iReg.toNat + n.toNat ≤ memSize) (x y : RegIdx) :
    exec (.drw x y n) s = .next (s.drawn x y n) := by
  have inRange : leastOutOfRange s.iReg.toNat n.toNat = none := by
    obtain rfl | hin := hin
    · rfl
    · exact leastOutOfRange_none hin
  rw [exec, execDrw_eq, inRange]
  rfl

theorem State.drawn_vf_eq_one (s : State) (x y : RegIdx) (n : Nibble) :
    (s.drawn x y n).getV 0xF = 1 ↔ (s.drawing x y n).collision = true := by
  have hvf : (s.drawn x y n).getV 0xF = flagByte (s.drawing x y n).collision := s.getV_setV_self vf _
  rw [hvf]
  cases (s.drawing x y n).collision <;> decide

/-- A second Dxyn at the same coordinates draws the same sprite onto the new grid. -/
theorem State.drawing_drawn {s : State} {x y : RegIdx} {n : Nibble} (hx : (s.drawn x y n).getV x = s.getV x)
    (hy : (s.drawn x y n).getV y = s.getV y) :
    (s.drawn x y n).drawing x y n =
      drawSprite s.cfg (s.getV x).toNat (s.getV y).toNat (s.sprite n) (s.drawing x y n).fb := by
  rw [State.drawing, hx, hy]
  rfl

/-- Settles O18. -/
theorem drwXorsTheSpriteAndReportsCollision : Obligations.DrwXorsTheSpriteAndReportsCollision := by
  intro x y n s hfb hin bytes covers
  refine ⟨(s.drawing x y n).fb, (s.drawing x y n).collision, exec_drw_of_inRange hin x y, drawSprite_wf hfb _ _ _,
    fun hW hH => ?_⟩
  have hlen := (s.length_sprite_le n).trans hH
  exact ⟨pixel_drawSprite hfb hW hlen, collision_drawSprite hfb hW hlen⟩

/-- Settles O19: the first sprite address out of range is recorded, and the grid is not touched. -/
theorem drwPastTheTopHalts : Obligations.DrwPastTheTopHalts := by
  intro x y n s hn hout
  have hn' : n.toNat ≠ 0 := fun h => hn (BitVec.eq_of_toNat_eq h)
  have bad : leastOutOfRange s.iReg.toNat n.toNat = some (max s.iReg.toNat memSize) := by
    rw [leastOutOfRange_eq, if_neg (by simp only [memSize]; omega)]
  rw [exec, execDrw_eq, bad, ← addr_of_leastOutOfRange bad]
  rfl

/-- Settles O20. -/
theorem drawingTwiceRestoresTheGrid : Obligations.DrawingTwiceRestoresTheGrid := by
  intro x y n s hfb hW hH hin bytes covers
  refine ⟨s.drawn x y n, exec_drw_of_inRange hin x y, fun hx hy => ?_⟩
  have hlen := (s.length_sprite_le n).trans hH
  have again := State.drawing_drawn hx hy
  refine ⟨(s.drawn x y n).drawn x y n, exec_drw_of_inRange (s := s.drawn x y n) hin x y, ?_, ?_⟩
  · exact (congrArg Drawing.fb again).trans (drawSprite_twice_fb hfb hW hlen)
  · rw [State.drawn_vf_eq_one, again]
    exact drawSprite_twice_collision hfb hW hlen

end Sys2Proof.Machine
end

section
/-! PROOFS. Control transfer (41_control_flow.md): the address operand as the word that PC takes, the exact sum of Bnnn, and from
these 0nnn, 1nnn, Bnnn, 2nnn and 00EE. -/

namespace Sys2Proof.Machine

/-! ## The targets of the jumps -/

/-- The address operand is zero-extended (30_encoding.md R49). -/
theorem addrOperand_eq_append (addr : Addr) : addrOperand addr = 0x0#4 ++ addr := by
  refine BitVec.eq_of_toNat_eq ?_
  have wide : (addrOperand addr).toNat = addr.toNat := BitVec.toNat_setWidth_of_le (by decide)
  rw [wide, append_toNat, BitVec.toNat_ofNat, Nat.zero_mod, Nat.zero_mul, Nat.zero_add]

/-- The sum of Bnnn is at most 0x10FE, so 16 bits hold it (41_control_flow.md R68). -/
theorem State.jumpV0Target_toNat (s : State) (addr : Addr) :
    (s.jumpV0Target addr).toNat = addr.toNat + (s.getV 0).toNat :=
  Nat.mod_eq_of_lt (by have := addr.isLt; have := (s.getV 0).isLt; omega)

/-- Settles O25. -/
theorem jpV0AddsV0ToTheAddress : Obligations.JpV0AddsV0ToTheAddress := fun addr s =>
  ⟨decodeWord_encode (i := .jpV0 addr) rfl, s.setPc (s.jumpV0Target addr), rfl, rfl, s.jumpV0Target_toNat addr⟩

/-- The jump of 0nnn and 1nnn writes PC only (41_control_flow.md R65, R66). -/
theorem State.setPc_addrOperand (s : State) (addr : Addr) :
    s.setPc (addrOperand addr) = { s with pc := 0x0#4 ++ addr } := by
  rw [← addrOperand_eq_append]
  rfl

/-- Settles O21. -/
theorem sysAndJpJumpToTheAddress : Obligations.SysAndJpJumpToTheAddress := by
  intro addr s
  have jumps : execJp addr s = .next { s with pc := 0x0#4 ++ addr } := congrArg _ (s.setPc_addrOperand addr)
  refine ⟨fun notCls notRet => ⟨?_, jumps⟩, decodeWord_encode (i := .jp addr) rfl, jumps⟩
  have wf : (Instr.sys addr).WellFormed := by simp [Instr.WellFormed, Instr.wellFormed, sysExcluded, notCls, notRet]
  exact decodeWord_encode (i := .sys addr) wf

/-! ## The stack -/

/-- Settles O22. -/
theorem callPushesTheReturnAddress : Obligations.CallPushesTheReturnAddress := by
  intro addr s
  refine ⟨decodeWord_encode (i := .call addr) rfl, fun room => ?_, fun full => ?_⟩
  · rw [exec, execCall, if_neg (by simp only [stackDepth]; omega), dif_pos room, addrOperand_eq_append]
    rfl
  · have depth : s.sp.toNat = stackDepth := congrArg BitVec.toNat full
    rw [exec, execCall, if_pos depth]
    rfl

/-- Settles O23. -/
theorem retPopsTheReturnAddress : Obligations.RetPopsTheReturnAddress := by
  intro s
  refine ⟨decodeWord_encode (i := .ret) rfl, fun k hk => ?_, fun empty => ?_⟩
  · have top : s.sp.toNat - 1 = k.val := by omega
    rw [exec, execRet, if_neg (by omega), dif_pos (top.trans_lt k.isLt)]
    simp only [top]
    rfl
  · have depth : s.sp.toNat = 0 := congrArg BitVec.toNat empty
    rw [exec, execRet, if_pos depth]
    rfl

end Sys2Proof.Machine
end

section
/-! PROOFS. The conditional skips (42_skips.md): a skip as an `if` on the condition its rule names, and from it the skips on an
immediate, on two registers and on a key. -/

namespace Sys2Proof.Machine

/-- A skip by its rule's condition `p` writes PC only (42_skips.md R69). -/
theorem State.skipIf_of_iff (s : State) {c : Bool} {p : Prop} [Decidable p] (h : c = true ↔ p) :
    s.skipIf c = { s with pc := BitVec.ofNat 16 (s.pc.toNat + if p then 4 else 2) } :=
  congrArg (fun k => s.setPc (s.pcPlus k)) (if_congr h rfl rfl)

/-- Settles O26. -/
theorem skipsOnImmediate : Obligations.SkipsOnImmediate := fun x kk s =>
  ⟨⟨decodeWord_encode (i := .seVxKk x kk) rfl, decodeWord_encode (i := .sneVxKk x kk) rfl⟩,
    congrArg _ (s.skipIf_of_iff beq_iff_eq), congrArg _ (s.skipIf_of_iff bne_iff_ne)⟩

/-! ## Two registers -/

/-- Family 5 has only words that end in 0 (30_encoding.md R50, R51). -/
theorem decodeWord_fmtXYN_5 (x y : RegIdx) (n : Nibble) :
    decodeWord (fmtXYN 0x5#4 x y n) =
      if n = 0 then .ok (.seVxVy x y) else .error (.unrecognized (fmtXYN 0x5#4 x y n)) := by
  simp [decodeWord]

/-- Family 9 has only words that end in 0 (30_encoding.md R50, R51). -/
theorem decodeWord_fmtXYN_9 (x y : RegIdx) (n : Nibble) :
    decodeWord (fmtXYN 0x9#4 x y n) =
      if n = 0 then .ok (.sneVxVy x y) else .error (.unrecognized (fmtXYN 0x9#4 x y n)) := by
  simp [decodeWord]

/-- Settles O27. -/
theorem skipsOnRegisters : Obligations.SkipsOnRegisters := fun x y s =>
  ⟨decodeWord_fmtXYN_5 x y, decodeWord_fmtXYN_9 x y,
    congrArg _ (s.skipIf_of_iff beq_iff_eq), congrArg _ (s.skipIf_of_iff bne_iff_ne)⟩

/-! ## A key -/

/-- Settles O28: the check of 42_skips.md R74 either names the key to look at or raises. -/
theorem skipsOnKey : Obligations.SkipsOnKey := by
  intro x s
  refine ⟨⟨decodeWord_encode (i := .skp x) rfl, decodeWord_encode (i := .sknp x) rfl⟩, fun k hk => ?_, fun big => ?_⟩
  · have isKey : (s.getV x).toNat < 16 := hk ▸ k.isLt
    have key : (⟨(s.getV x).toNat, isKey⟩ : Fin 16) = k := Fin.ext hk
    rw [exec, execSkp, dif_pos isKey, exec, execSknp, dif_pos isKey, key]
    exact ⟨congrArg _ (s.skipIf_of_iff Iff.rfl), congrArg _ (s.skipIf_of_iff (Bool.not_eq_true' _).to_iff)⟩
  · have noKey : ¬ (s.getV x).toNat < 16 := by omega
    rw [exec, execSkp, dif_neg noKey, exec, execSknp, dif_neg noKey]
    exact ⟨rfl, rfl⟩

end Sys2Proof.Machine
end

section
/-! PROOFS. Register, ALU and shift instructions (43_alu.md): the two ways the datapath ends, in `V[x]` alone or in `V[x]` and
then VF, the arithmetic of its results and flags, and from these 6xkk, 7xkk, 8xy0 to 8xyE and Cxkk. -/

namespace Sys2Proof.Machine

/-! ## A result and no flag -/

/-- A result goes to `V[x]` and PC advances (43_alu.md R78 to R83, R89). -/
theorem next_setV_advance (s : State) (x : RegIdx) (b : Byte) {o : Outcome} (ho : o = .next (s.setV x b).advance) :
    o = .next { s with v := s.v.set x.toNat b, pc := BitVec.ofNat 16 (s.pc.toNat + 2) } := ho

/-- Settles O29. -/
theorem registerLoadsAndAddImmediate : Obligations.RegisterLoadsAndAddImmediate := fun x y kk s =>
  ⟨⟨decodeWord_encode (i := .ldVxKk x kk) rfl, decodeWord_encode (i := .addVxKk x kk) rfl,
      decodeWord_encode (i := .ldVxVy x y) rfl⟩,
    next_setV_advance s x kk rfl, next_setV_advance s x (addByte (s.getV x) kk) rfl, next_setV_advance s x (s.getV y) rfl⟩

/-- Settles O30. -/
theorem bitwiseOpsLeaveVfAlone : Obligations.BitwiseOpsLeaveVfAlone := fun x y s =>
  ⟨⟨decodeWord_encode (i := .orVxVy x y) rfl, decodeWord_encode (i := .andVxVy x y) rfl,
      decodeWord_encode (i := .xorVxVy x y) rfl⟩,
    next_setV_advance s x (s.getV x ||| s.getV y) rfl, next_setV_advance s x (s.getV x &&& s.getV y) rfl,
    next_setV_advance s x (s.getV x ^^^ s.getV y) rfl⟩

/-- Settles O34. -/
theorem rndMasksAFreshDraw : Obligations.RndMasksAFreshDraw := by
  intro x kk s
  have masked : s.randByte &&& kk &&& ~~~kk = 0 := by
    rw [BitVec.and_assoc, BitVec.and_not_self]
    exact BitVec.and_zero
  refine ⟨decodeWord_encode (i := .rnd x kk) rfl, _,
    next_setV_advance { s with randDraws := s.randDraws + 1 } x (s.randByte &&& kk) rfl, rfl, ?_⟩
  exact (congrArg (· &&& ~~~kk) (State.getV_setV_self (s := s) x (s.randByte &&& kk))).trans masked

/-! ## A result and then the flag -/

/-- VF is written last, so with x = 0xF it holds the flag (10_state.md R17). -/
theorem State.getV_setVAndFlag (s : State) (x j : RegIdx) (r : Byte) (c : Bool) :
    (s.setVAndFlag x r c).getV j = if j = 0xF then flagByte c else if j = x then r else s.getV j :=
  (State.getV_setV ..).trans (congrArg _ (State.getV_setV ..))

/-- `V[x]` then VF, by a flag that is 1 exactly when `p` (10_state.md R17, 43_alu.md R77, decision D5): what the registers hold
afterwards, and that PC is all that changes beside them. -/
theorem next_setVAndFlag_advance {s : State} {x : RegIdx} {r : Byte} {c : Bool} {p : Prop} [Decidable p] (h : c = true ↔ p)
    {o : Outcome} (ho : o = .next (s.setVAndFlag x r c).advance) :
    ∃ t, o = .next t ∧
      t = { s with v := t.v, pc := BitVec.ofNat 16 (s.pc.toNat + 2) } ∧
      (x ≠ 0xF → t.getV x = r) ∧ t.getV 0xF = (if p then 1 else 0) ∧
      ∀ j : RegIdx, j ≠ x → j ≠ 0xF → t.getV j = s.getV j := by
  have regs (j : RegIdx) : (s.setVAndFlag x r c).advance.getV j = _ := s.getV_setVAndFlag x j r c
  refine ⟨_, ho, rfl, fun hx => ?_, ?_, fun j hjx hj => ?_⟩
  · rw [regs, if_neg hx, if_pos rfl]
  · rw [regs, if_pos rfl]
    exact if_congr h rfl rfl
  · rw [regs, if_neg hj, if_neg hjx]

/-- A difference wraps modulo 256 (43_alu.md R77). -/
theorem subByte_toNat (a b : Byte) : ((subByte a b).toNat : Int) = (a.toNat - b.toNat : Int) % 256 := by
  rw [subByte, truncInt8, BitVec.toNat_ofInt, Int.toNat_of_nonneg (by omega)]
  rfl

/-- Settles O31. -/
theorem addRegistersSetsCarry : Obligations.AddRegistersSetsCarry := by
  intro x y s
  obtain ⟨t, ht, frame, sum, carry, others⟩ :=
    next_setVAndFlag_advance decide_eq_true_iff (rfl : exec (.addVxVy x y) s = _)
  exact ⟨decodeWord_encode (i := .addVxVy x y) rfl, t, ht, frame, fun hx => congrArg BitVec.toNat (sum hx), carry, others⟩

/-- Both subtractions end alike: the wrapped difference of `a` and `b` to `V[x]`, then the strict comparison to VF
(43_alu.md R85, R87). -/
theorem next_setVAndFlag_subByte_advance {s : State} {x : RegIdx} {a b : Byte} {o : Outcome}
    (ho : o = .next (s.setVAndFlag x (subByte a b) (notBorrowFlag a b)).advance) :
    ∃ t, o = .next t ∧
      t = { s with v := t.v, pc := BitVec.ofNat 16 (s.pc.toNat + 2) } ∧
      (x ≠ 0xF → ((t.getV x).toNat : Int) = (a.toNat - b.toNat : Int) % 256) ∧
      t.getV 0xF = (if a.toNat > b.toNat then 1 else 0) ∧
      ∀ j : RegIdx, j ≠ x → j ≠ 0xF → t.getV j = s.getV j := by
  obtain ⟨t, ht, frame, difference, flag, others⟩ := next_setVAndFlag_advance decide_eq_true_iff ho
  refine ⟨t, ht, frame, fun hx => ?_, flag, others⟩
  rw [difference hx, subByte_toNat]

/-- Settles O32. -/
theorem subtractionsSetNotBorrow : Obligations.SubtractionsSetNotBorrow := fun x y _ =>
  ⟨⟨decodeWord_encode (i := .sub x y) rfl, decodeWord_encode (i := .subn x y) rfl⟩,
    next_setVAndFlag_subByte_advance rfl, next_setVAndFlag_subByte_advance rfl⟩

/-! ## The shifts -/

theorem shiftRight1_eq (a : Byte) : shiftRight1 a = a >>> 1 := by
  refine BitVec.eq_of_toNat_eq ?_
  have small : a.toNat / 2 < 256 := by omega
  rw [shiftRight1, trunc8_toNat_of_lt small, BitVec.toNat_ushiftRight, Nat.shiftRight_eq_div_pow]

theorem shiftLeft1_eq (a : Byte) : shiftLeft1 a = a <<< 1 := by
  refine BitVec.eq_of_toNat_eq ?_
  rw [shiftLeft1, trunc8, BitVec.toNat_ofNat, BitVec.toNat_shiftLeft, Nat.shiftLeft_eq]

/-- The bit 8xy6 shifts out is bit 0 (43_alu.md R86). -/
theorem flagByte_shiftedOutRight (a : Byte) : flagByte (shiftedOutRight a) = a &&& 1 := by
  rw [shiftedOutRight]
  refine Eq.trans ?_ (BitVec.and_one_eq_setWidth_ofBool_getLsbD (x := a)).symm
  cases a.getLsbD 0 <;> rfl

/-- The bit 8xyE shifts out is bit 7 (43_alu.md R88). -/
theorem flagByte_shiftedOutLeft (a : Byte) : flagByte (shiftedOutLeft a) = a >>> 7 := by
  have top : shiftedOutLeft a = decide (a.toNat ≥ 128) := BitVec.msb_eq_decide a
  refine BitVec.eq_of_toNat_eq ?_
  rw [top, BitVec.toNat_ushiftRight, Nat.shiftRight_eq_div_pow]
  by_cases high : a.toNat ≥ 128
  · rw [decide_eq_true high]
    show 1 = _
    omega
  · rw [decide_eq_false high]
    show 0 = _
    omega

/-- Settles O33. -/
theorem shiftsPutTheLostBitInVf : Obligations.ShiftsPutTheLostBitInVf := by
  intro x y s
  refine ⟨⟨decodeWord_encode (i := .shr x y) rfl, decodeWord_encode (i := .shl x y) rfl⟩, ?_, ?_⟩
  · rw [← shiftRight1_eq, ← flagByte_shiftedOutRight]
    rfl
  · rw [← shiftLeft1_eq, ← flagByte_shiftedOutLeft]
    rfl

end Sys2Proof.Machine
end

section
/-! PROOFS. Address register and memory instructions (44_index_memory.md): what is left of an access through I that is out of
range, what a store leaves in every cell and a load in every register, and from these Annn, Fx1E, Fx29, Fx33, Fx55 and Fx65. -/

namespace Sys2Proof.Machine

/-! ## The address register -/

/-- The result goes to I and PC advances (44_index_memory.md R90 to R92). -/
theorem next_setI_advance (s : State) (w : Word) {o : Outcome} (ho : o = .next (s.setI w).advance) :
    o = .next { s with iReg := w, pc := BitVec.ofNat 16 (s.pc.toNat + 2) } := ho

/-- Settles O35. -/
theorem ldILoadsTheAddress : Obligations.LdILoadsTheAddress := fun addr s =>
  ⟨decodeWord_encode (i := .ldI addr) rfl, addrOperand_eq_append addr ▸ next_setI_advance s (addrOperand addr) rfl⟩

/-- Settles O36. -/
theorem addIWrapsAt16Bits : Obligations.AddIWrapsAt16Bits := fun x s =>
  ⟨decodeWord_encode (i := .addIVx x) rfl, next_setI_advance s (trunc16 (s.iReg.toNat + (s.getV x).toNat)) rfl⟩

/-- The glyphs begin at address 0 (00_scope.md R6). -/
theorem glyphAddr_eq (d : Byte) : glyphAddr d = BitVec.ofNat 16 (d.toNat * 5) := by
  rw [glyphAddr, fontBase, Nat.zero_add, trunc16]

/-- Settles O37. -/
theorem ldFPointsAtTheGlyph : Obligations.LdFPointsAtTheGlyph := by
  intro x s
  refine ⟨decodeWord_encode (i := .ldFVx x) rfl, fun digit => ?_, fun big => ?_⟩
  · rw [exec, execLdFVx, if_neg (Nat.not_lt.2 digit), ← glyphAddr_eq]
    exact next_setI_advance s (glyphAddr (s.getV x)) rfl
  · rw [exec, execLdFVx, if_pos big]
    rfl

/-! ## An access through I that is out of range -/

/-- The state after instruction `i` raised because it reaches past the top through I: the first address of its range that is no
cell is recorded, and nothing else has changed (60_exceptions.md R103 to R105, decisions D7 and D9). -/
def State.haltedThroughI (s : State) (i : Instr) : State :=
  { s with
    mode := .halted
    fault := { code := 1, pc := s.pc, instr := encode i, instrValid := true
               addr := if s.iReg.toNat ≥ 4096 then s.iReg else 0x1000 } }

/-- The check of the range `I .. I + k` finds its last address past the top. -/
theorem raises_of_outOfRange {s : State} {k : Nat} (out : memSize ≤ s.iReg.toNat + k) (i : Instr) :
    ∃ bad, leastOutOfRange s.iReg.toNat (k + 1) = some bad ∧
      raiseIn i (.outOfRangeAddress bad) s = .next (s.haltedThroughI i) := by
  have bad : leastOutOfRange s.iReg.toNat (k + 1) = some (max s.iReg.toNat memSize) := by
    rw [leastOutOfRange_eq, if_neg (by omega)]
  refine ⟨_, bad, ?_⟩
  rw [State.haltedThroughI, ← addr_of_leastOutOfRange bad]
  rfl

/-! ## Stores -/

/-- A store leaves the cells outside its range as they are. -/
theorem State.byteAt_of_stored_outside {s t : State} (hm : Memory.wf s.cfg s.mem) {a j : Nat} {bytes : List Byte}
    (mem : t.mem = (s.putBytes a bytes).mem) (cfg : t.cfg = s.cfg) (hin : a + bytes.length ≤ memSize)
    (hj : j < a ∨ a + bytes.length ≤ j) : t.byteAt j = s.byteAt j := by
  rw [State.byteAt_congr mem (cfg.trans (s.putBytes_cfg a bytes).symm), State.byteAt_putBytes hm a j bytes hin,
    if_neg (by omega)]

/-- Fx33 with all its cells in range writes memory and PC only (44_index_memory.md R93). -/
theorem exec_ldBVx_of_inRange {x : RegIdx} {s : State} (hin : s.iReg.toNat + 2 < memSize) :
    exec (.ldBVx x) s = .next { s with
      mem := (s.putBytes s.iReg.toNat (bcdDigits (s.getV x))).mem, pc := BitVec.ofNat 16 (s.pc.toNat + 2) } := by
  rw [exec, execLdBVx_eq, leastOutOfRange_none (by omega), State.putBytes_eq]
  rfl

/-- Fx55 with all its cells in range writes memory, I and PC only (44_index_memory.md R94). -/
theorem exec_ldMemVx_of_inRange {x : RegIdx} {s : State} (hin : s.iReg.toNat + x.toNat < memSize) :
    exec (.ldMemVx x) s = .next { s with
      mem := (s.putBytes s.iReg.toNat (s.lowRegs x)).mem
      iReg := BitVec.ofNat 16 (s.iReg.toNat + x.toNat + 1)
      pc := BitVec.ofNat 16 (s.pc.toNat + 2) } := by
  rw [exec, execLdMemVx_eq, leastOutOfRange_none (by omega), State.putBytes_eq]
  rfl

/-- The decimal digits are as the rule has them: none is cut off by its byte (44_index_memory.md R93). -/
theorem bcdDigits_getD_toNat (b : Byte) :
    ((bcdDigits b).getD 0 0).toNat = b.toNat / 100 ∧ ((bcdDigits b).getD 1 0).toNat = b.toNat / 10 % 10 ∧
      ((bcdDigits b).getD 2 0).toNat = b.toNat % 10 := by
  have hb := b.isLt
  exact ⟨trunc8_toNat_of_lt (by omega), trunc8_toNat_of_lt (by omega), trunc8_toNat_of_lt (by omega)⟩

/-- Settles O38. -/
theorem ldBStoresTheDecimalDigits : Obligations.LdBStoresTheDecimalDigits := by
  intro x s
  refine ⟨decodeWord_encode (i := .ldBVx x) rfl, fun hin hm => ?_, fun out => ?_⟩
  · obtain ⟨t, hexec, -, stored⟩ := exec_ldBVx_stores (x := x) hm hin
    obtain rfl := next_inj ((exec_ldBVx_of_inRange hin).symm.trans hexec)
    obtain ⟨hundreds, tens, ones⟩ := bcdDigits_getD_toNat (s.getV x)
    refine ⟨_, hexec, rfl, ?_, ?_, ?_, fun a ha => State.byteAt_of_stored_outside hm rfl rfl hin ha⟩
    · exact (congrArg _ (stored 0 (by decide))).trans hundreds
    · exact (congrArg _ (stored 1 (by decide))).trans tens
    · exact (congrArg _ (stored 2 (by decide))).trans ones
  · obtain ⟨bad, hbad, raised⟩ := raises_of_outOfRange out (.ldBVx x)
    rw [exec, execLdBVx_eq, hbad]
    exact raised

/-- Settles O39. -/
theorem storeRegistersAndAdvanceI : Obligations.StoreRegistersAndAdvanceI := by
  intro x s
  refine ⟨decodeWord_encode (i := .ldMemVx x) rfl, fun hin hm => ?_, fun out => ?_⟩
  · obtain ⟨t, hexec, -, stored⟩ := exec_ldMemVx_stores hm hin
    obtain rfl := next_inj ((exec_ldMemVx_of_inRange hin).symm.trans hexec)
    have hlen := s.length_lowRegs x
    have hmax : s.iReg.toNat + (s.lowRegs x).length ≤ memSize := by simp only [memSize]; omega
    refine ⟨_, hexec, rfl, stored, fun a ha => ?_⟩
    have outside : a < s.iReg.toNat ∨ s.iReg.toNat + (s.lowRegs x).length ≤ a := by omega
    exact State.byteAt_of_stored_outside hm rfl rfl hmax outside
  · obtain ⟨bad, hbad, raised⟩ := raises_of_outOfRange out (.ldMemVx x)
    rw [exec, execLdMemVx_eq, hbad]
    exact raised

/-! ## Loads -/

/-- Loading `x + 1` bytes from V0 on reaches the registers up to `V[x]` and no other (44_index_memory.md R95). -/
theorem State.getV_loadV_range (s : State) (x j : RegIdx) (f : Nat → Byte) :
    (s.loadV 0 ((List.range (x.toNat + 1)).map f)).getV j = if j ≤ x then f j.toNat else s.getV j := by
  have hx := x.isLt
  rw [State.getV_loadV s 0 _ (by simp only [List.length_map, List.length_range]; omega)]
  refine ite_congr (by simp [BitVec.le_def]) (fun hj => ?_) fun _ => rfl
  have hj' : j.toNat < x.toNat + 1 := Nat.lt_succ_of_le (BitVec.le_def.1 hj)
  simp [List.getD_eq_getElem?_getD, hj']

/-- Settles O40. -/
theorem loadRegistersAndAdvanceI : Obligations.LoadRegistersAndAdvanceI := by
  intro x s
  refine ⟨decodeWord_encode (i := .ldVxMem x) rfl, fun hin => ?_, fun out => ?_⟩
  · have inRange : leastOutOfRange s.iReg.toNat (x.toNat + 1) = none := leastOutOfRange_none hin
    rw [exec, execLdVxMem_eq, inRange]
    refine ⟨_, rfl, ?_, fun j => s.getV_loadV_range x j fun k => s.byteAt (s.iReg.toNat + k)⟩
    rw [State.loadV_eq]
    rfl
  · obtain ⟨bad, hbad, raised⟩ := raises_of_outOfRange out (.ldVxMem x)
    rw [exec, execLdVxMem_eq, hbad]
    exact raised

/-! ## A store and a load at one address -/

/-- Past a range in memory, I has not wrapped (decision D30). -/
theorem toNat_iReg_of_advanced {t : State} {a k : Nat} (h : t.iReg = BitVec.ofNat 16 (a + k + 1)) (hin : a + k < 4096) :
    t.iReg.toNat = a + k + 1 := by
  rw [h, BitVec.toNat_ofNat, Nat.mod_eq_of_lt (by omega)]

/-- Annn points I at its operand and leaves the cells alone (44_index_memory.md R90). -/
theorem exec_ldI_points (addr : Addr) (s : State) :
    ∃ t, exec (.ldI addr) s = .next t ∧ t.iReg.toNat = addr.toNat ∧ ∀ a, t.byteAt a = s.byteAt a :=
  ⟨(s.setI (addrOperand addr)).advance, rfl, BitVec.toNat_setWidth_of_le (by decide), fun _ => rfl⟩

/-- Settles O41, from O39 and, in the state that Annn leaves, O40. -/
theorem storeThenLoadGivesTheRegistersBack : Obligations.StoreThenLoadGivesTheRegistersBack := by
  intro x addr s hi hin hm
  obtain ⟨-, stores, -⟩ := storeRegistersAndAdvanceI x s
  rw [hi] at stores
  obtain ⟨t, hstore, tframe, stored, -⟩ := stores hin hm
  refine ⟨t, hstore, toNat_iReg_of_advanced (congrArg State.iReg tframe) hin, fun u kept => ?_⟩
  obtain ⟨u₁, hpoint, hu₁, cells⟩ := exec_ldI_points addr u
  obtain ⟨-, loads, -⟩ := loadRegistersAndAdvanceI x u₁
  rw [hu₁] at loads
  obtain ⟨u₂, hload, uframe, loaded⟩ := loads hin
  refine ⟨u₁, u₂, hpoint, hload, toNat_iReg_of_advanced (congrArg State.iReg uframe) hin, fun j hj => ?_⟩
  calc u₂.getV j = u₁.byteAt (addr.toNat + j.toNat) := (loaded j).trans (if_pos hj)
    _ = u.byteAt (addr.toNat + j.toNat) := cells _
    _ = t.byteAt (addr.toNat + j.toNat) := kept j.toNat (BitVec.le_def.1 hj)
    _ = s.getV j := stored j hj

end Sys2Proof.Machine
end

section
/-! PROOFS. Timer and key-wait instructions (45_timers_input.md): the step of a block that waits for a key, the poll with and
without a pressed key, and from these the poll, Fx07, Fx0A, Fx15 and Fx18. -/

namespace Sys2Proof.Machine

/-! ## The key wait -/

/-- In mode AwaitingKey an `InstrEvent` polls the keys and fetches nothing (45_timers_input.md R99). -/
theorem step_polled {s : State} (ev : s.InstrNext) (mode : s.mode = .awaitingKey) :
    step s = .next s.atInstr.keyPoll.endEvent := by
  have polls : s.atInstr.mode = .awaitingKey := mode
  rw [step_instr ev, State.instrBody, polls]
  rfl

/-- The poll stores the least pressed key and resumes (45_timers_input.md R99, decision D13). -/
theorem State.keyPoll_of_least {s : State} {k : Fin 16} (pressed : s.keys[k] = true)
    (least : ∀ j : Fin 16, j < k → s.keys[j] = false) :
    s.keyPoll = { s with v := s.v.set s.waitReg.toNat (BitVec.ofNat 8 k), mode := .running } := by
  have found : s.leastPressed = some k.val :=
    State.leastPressed_eq_some.2 ⟨k.isLt, pressed, fun j hj => least ⟨j, hj.trans k.isLt⟩ hj⟩
  rw [State.keyPoll, found]
  rfl

/-- The poll changes nothing while no key is pressed (45_timers_input.md R99). -/
theorem State.keyPoll_of_none {s : State} (noKey : ∀ k : Fin 16, s.keys[k] = false) : s.keyPoll = s := by
  rw [State.keyPoll, State.leastPressed_eq_none.2 noKey]

/-- Settles O9. -/
theorem keyPollStoresTheLeastPressedKey : Obligations.KeyPollStoresTheLeastPressedKey := by
  intro s ev mode
  rw [step_polled ev mode]
  refine ⟨fun k pressed least => ?_, fun noKey => ?_⟩
  · rw [State.keyPoll_of_least (s := s.atInstr) pressed least, State.endEvent_of_live (by simp)]
    rfl
  · have live : s.atInstr.mode ≠ .halted := by simp [State.atInstr, mode]
    rw [State.keyPoll_of_none (s := s.atInstr) noKey, State.endEvent_of_live live]
    rfl

/-- Settles O45. -/
theorem ldVxKEntersTheKeyWait : Obligations.LdVxKEntersTheKeyWait := fun x _ =>
  ⟨decodeWord_encode (i := .ldVxK x) rfl, rfl⟩

/-! ## The timers -/

/-- Settles O43. -/
theorem delayTimerIsReadAndSet : Obligations.DelayTimerIsReadAndSet := fun x s =>
  ⟨⟨decodeWord_encode (i := .ldVxDt x) rfl, decodeWord_encode (i := .ldDtVx x) rfl⟩, next_setV_advance s x s.dt rfl, rfl⟩

/-- Fx18 writes ST and PC only (45_timers_input.md R101). -/
theorem exec_ldStVx (x : RegIdx) (s : State) :
    exec (.ldStVx x) s = .next { s with st := s.getV x, pc := BitVec.ofNat 16 (s.pc.toNat + 2) } := rfl

/-- Settles O44: the instruction leaves the block Running, so the trigger at the end of its event is the new ST's alone. -/
theorem soundTimerSetsTheAudioTrigger : Obligations.SoundTimerSetsTheAudioTrigger := by
  intro x s
  have dec : decodeWord (0xF#4 ++ x ++ 0x18#8) = .ok (.ldStVx x) := decodeWord_encode (i := .ldStVx x) rfl
  refine ⟨dec, exec_ldStVx x s, fun ev mode fetch word => ?_⟩
  have live : s.atInstr.mode ≠ .halted := State.mode_ne_halted_of_running mode
  rw [step_running ev mode fetch (word ▸ dec), exec_ldStVx, endOutcome, State.endEvent_of_live (by exact live)]
  exact ⟨_, rfl, rfl, decide_eq_true_iff⟩

end Sys2Proof.Machine
end

section
/-! PROOFS. Fatal conditions, timer and key events (60_exceptions.md): what the ticks do to a live and to a halted block, which
instruction raises which fatal condition and what that leaves, and, from the bound on SP, that a run whose loads come first
never stops. -/

namespace Sys2Proof.Machine

/-! ## A halted block -/

/-- The event ends with the audio off in a halted block (10_state.md R28). -/
theorem State.endEvent_of_halted {s : State} (halted : s.mode = .halted) : s.endEvent = { s with audioOn := false } := by
  simp [State.endEvent, halted]

/-- In mode Halted an `InstrEvent` fetches nothing (60_exceptions.md R106). -/
theorem step_idle {s : State} (ev : s.InstrNext) (mode : s.mode = .halted) : step s = .next s.atInstr.endEvent := by
  have ignores : s.atInstr.mode = .halted := mode
  rw [step_instr ev, State.instrBody, ignores]
  rfl

/-- A halted block ignores a `TimerEvent` (60_exceptions.md R106). -/
theorem State.timerBody_of_halted {s : State} (halted : s.mode = .halted) : s.timerBody = s := by
  rw [State.timerBody, halted]

/-- Settles O10. -/
theorem haltedBlockIgnoresTicks : Obligations.HaltedBlockIgnoresTicks := by
  intro s halted
  refine ⟨fun ev => ?_, fun ev => ?_⟩
  · rw [step_idle ev halted, State.endEvent_of_halted (by exact halted)]
  · rw [step_of_nextEvent ev, deliver, State.timerBody_of_halted (by exact halted),
      State.endEvent_of_halted (by exact halted)]
    rfl

/-! ## The timers -/

/-- A timer counts down by one and floors at zero (60_exceptions.md R110). -/
theorem countDown_toNat (b : Byte) : (countDown b).toNat = b.toNat - 1 := by
  have hb := b.isLt
  by_cases h : b = 0
  · subst h; rfl
  · rw [countDown, if_pos h, trunc8, BitVec.toNat_ofNat, Nat.mod_eq_of_lt (by omega)]

/-- In a live block a `TimerEvent` counts both timers down (60_exceptions.md R110). -/
theorem State.timerBody_of_live {s : State} (live : s.mode ≠ .halted) :
    s.timerBody = { s with st := countDown s.st, dt := countDown s.dt } := by
  unfold State.timerBody
  split
  next halted => exact absurd halted live
  next => rfl
  next => rfl

/-- Settles O11. -/
theorem timerEventCountsBothTimersDown : Obligations.TimerEventCountsBothTimersDown := by
  intro s ev live
  rw [step_of_nextEvent ev, deliver, State.timerBody_of_live (by exact live), State.endEvent_of_live (by exact live)]
  exact ⟨_, rfl, rfl, countDown_toNat s.st, countDown_toNat s.dt, decide_eq_true_iff⟩

/-! ## The keys -/

/-- Key `j` of a snapshot is its bit `j` (60_exceptions.md R113). -/
theorem keysOfSnapshot_getElem (k : BitVec 16) (j : Fin 16) : (keysOfSnapshot k)[j] = k.getLsbD j := by
  have bits : keysOfSnapshot k = Vector.ofFn fun j : Fin 16 => k.getLsbD j := rfl
  rw [bits]
  exact Vector.getElem_ofFn _

/-- Settles O12. -/
theorem keysEventReplacesTheKeys : Obligations.KeysEventReplacesTheKeys := fun _ k ev =>
  ⟨_, step_of_nextEvent ev, rfl, keysOfSnapshot_getElem k⟩

/-! ## An instruction that halts -/

/-- An instruction that halts a live block has raised a fatal condition, and not that of an unrecognized word. -/
theorem exec_raised_of_halts {i : Instr} {s t : State} (h : exec i s = .next t) (live : s.mode ≠ .halted)
    (halts : t.mode = .halted) :
    ∃ f, (∀ w, f ≠ .unrecognizedOpcode w) ∧ t = s.raiseFatal f (some (encode i)) := by
  cases exec_effect h with
  | raised f recognized => exact ⟨f, recognized, rfl⟩
  | awaited x pc instr => cases halts
  | _ => exact absurd halts live

/-- Settles O50. -/
theorem haltingInstructionCommitsNothing : Obligations.HaltingInstructionCommitsNothing := by
  intro i s t h live halts
  obtain ⟨f, recognized, rfl⟩ := exec_raised_of_halts h live halts
  have record : FaultRecordOk (s.raiseFatal f (some (encode i))) :=
    FaultRecordOk.raiseFatal s f _ (fun w hw => absurd hw (recognized w)) nofun
  exact ⟨rfl, rfl, rfl, rfl, s.raiseFatal_code_ne_zero f _, record.addr⟩

/-- An instruction that halts with code `c` if its check `p` holds, and leaves the mode if not, halts exactly if `p` holds. -/
theorem halts_iff_of_check {i : Instr} {s t : State} {p : Prop} {c : BitVec 3} (h : exec i s = .next t)
    (live : s.mode ≠ .halted) (raises : p → ∃ u, exec i s = .next u ∧ u.mode = .halted ∧ u.fault.code = c)
    (goes : ¬ p → ∃ u, exec i s = .next u ∧ u.mode = s.mode) : t.mode = .halted ↔ p ∧ t.fault.code = c := by
  by_cases hp : p
  · obtain ⟨u, hu, halted, code⟩ := raises hp
    obtain rfl := next_inj (h.symm.trans hu)
    exact iff_of_true halted ⟨hp, code⟩
  · obtain ⟨u, hu, mode⟩ := goes hp
    obtain rfl := next_inj (h.symm.trans hu)
    exact iff_of_false (mode ▸ live) fun hpc => hp hpc.1

/-- A 00EE that finds a return address leaves the mode (41_control_flow.md R64). -/
theorem exec_ret_mode {s t : State} (h : exec .ret s = .next t) (nonempty : s.sp ≠ 0) : t.mode = s.mode := by
  have depth : s.sp.toNat ≠ 0 := fun e => nonempty (BitVec.eq_of_toNat_eq e)
  rw [exec, execRet, if_neg depth] at h
  split_ifs at h
  cases next_inj h
  rfl

/-- A 2nnn that finds room leaves the mode (41_control_flow.md R67). -/
theorem exec_call_mode {addr : Addr} {s t : State} (h : exec (.call addr) s = .next t) (room : s.sp ≠ 16) :
    t.mode = s.mode := by
  have depth : s.sp.toNat ≠ stackDepth := fun e => room (BitVec.eq_of_toNat_eq e)
  rw [exec, execCall, if_neg depth] at h
  split_ifs at h
  cases next_inj h
  rfl

/-- Settles O51: each instruction that checks something by its own statement, every other by leaving the mode or by waiting. -/
theorem fatalConditionsAreRaisedByTheseOnly : Obligations.FatalConditionsAreRaisedByTheseOnly := by
  intro i s t h live
  cases i with
  | drw x y n =>
    have key := halts_iff_of_check (p := n ≠ 0 ∧ s.iReg.toNat + n.toNat > 4096) h live
      (fun ⟨rows, out⟩ => ⟨_, drwPastTheTopHalts x y n s rows out, rfl, rfl⟩)
      (fun fits => ⟨_, exec_drw_of_inRange (by simpa [memSize, or_iff_not_imp_left] using fits) x y, rfl⟩)
    simpa [and_assoc] using key
  | ldBVx x =>
    obtain ⟨-, -, raises⟩ := ldBStoresTheDecimalDigits x s
    simpa using halts_iff_of_check h live (fun out => ⟨_, raises out, rfl, rfl⟩)
      (fun fits => ⟨_, exec_ldBVx_of_inRange (Nat.lt_of_not_ge fits), rfl⟩)
  | ldMemVx x =>
    obtain ⟨-, -, raises⟩ := storeRegistersAndAdvanceI x s
    simpa using halts_iff_of_check h live (fun out => ⟨_, raises out, rfl, rfl⟩)
      (fun fits => ⟨_, exec_ldMemVx_of_inRange (Nat.lt_of_not_ge fits), rfl⟩)
  | ldVxMem x =>
    obtain ⟨-, loads, raises⟩ := loadRegistersAndAdvanceI x s
    simpa using halts_iff_of_check h live (fun out => ⟨_, raises out, rfl, rfl⟩) fun fits =>
      have ⟨u, hu, frame, _⟩ := loads (Nat.lt_of_not_ge fits)
      ⟨u, hu, (congrArg State.mode frame :)⟩
  | ret =>
    obtain ⟨-, -, raises⟩ := retPopsTheReturnAddress s
    simpa using halts_iff_of_check h live (fun empty => ⟨_, raises empty, rfl, rfl⟩)
      (fun nonempty => ⟨t, h, exec_ret_mode h nonempty⟩)
  | call addr =>
    obtain ⟨-, -, raises⟩ := callPushesTheReturnAddress addr s
    simpa using halts_iff_of_check h live (fun full => ⟨_, raises full, rfl, rfl⟩)
      (fun room => ⟨t, h, exec_call_mode h room⟩)
  | ldFVx x =>
    obtain ⟨-, points, raises⟩ := ldFPointsAtTheGlyph x s
    simpa using halts_iff_of_check h live (fun big => ⟨_, raises big, rfl, rfl⟩)
      (fun digit => ⟨_, points (Nat.le_of_not_gt digit), rfl⟩)
  | skp x =>
    obtain ⟨-, skips, raises⟩ := skipsOnKey x s
    simpa using halts_iff_of_check h live (fun big => ⟨_, (raises big).1, rfl, rfl⟩)
      (fun key => ⟨_, (skips ⟨(s.getV x).toNat, by omega⟩ rfl).1, rfl⟩)
  | sknp x =>
    obtain ⟨-, skips, raises⟩ := skipsOnKey x s
    simpa using halts_iff_of_check h live (fun big => ⟨_, (raises big).2, rfl, rfl⟩)
      (fun key => ⟨_, (skips ⟨(s.getV x).toNat, by omega⟩ rfl).2, rfl⟩)
  | ldVxK x => cases next_inj h; exact iff_of_false nofun (by simp)
  | _ => cases next_inj h; exact iff_of_false live (by simp)

/-! ## Progress -/

/-- With SP inside the stack every instruction has a next state (10_state.md R19). -/
theorem exec_next_of_sp_le {s : State} (bound : s.sp.toNat ≤ stackDepth) (i : Instr) : ∃ t, exec i s = .next t := by
  cases i with
  | ret =>
    rw [exec, execRet, dif_pos (show s.sp.toNat - 1 < 16 by simp only [stackDepth] at bound; omega)]
    split <;> exact ⟨_, rfl⟩
  | call addr =>
    rw [exec, execCall]
    split
    next => exact ⟨_, rfl⟩
    next room =>
      have below : s.sp.toNat < 16 := lt_of_le_of_ne bound room
      rw [dif_pos below]
      exact ⟨_, rfl⟩
  | skp x => rw [exec, execSkp]; split <;> exact ⟨_, rfl⟩
  | sknp x => rw [exec, execSknp]; split <;> exact ⟨_, rfl⟩
  | ldFVx x => rw [exec, execLdFVx]; split <;> exact ⟨_, rfl⟩
  | drw x y n => rw [exec, execDrw_eq]; split <;> exact ⟨_, rfl⟩
  | ldBVx x => rw [exec, execLdBVx_eq]; split <;> exact ⟨_, rfl⟩
  | ldMemVx x => rw [exec, execLdMemVx_eq]; split <;> exact ⟨_, rfl⟩
  | ldVxMem x => rw [exec, execLdVxMem_eq]; split <;> exact ⟨_, rfl⟩
  | _ => exact ⟨_, rfl⟩

/-- With SP inside the stack an `InstrEvent` has a next state, in every mode (60_exceptions.md R107). -/
theorem step_instr_next {s : State} (ev : s.InstrNext) (bound : s.sp.toNat ≤ stackDepth) : ∃ t, step s = .next t := by
  cases mode : s.mode with
  | halted => exact ⟨_, step_idle ev mode⟩
  | awaitingKey => exact ⟨_, step_polled ev mode⟩
  | running =>
    by_cases fetch : s.CanFetch
    · cases dec : decodeWord s.wordAtPc with
      | error e => exact ⟨_, step_unrecognized ev mode fetch (decodeWord_error dec ▸ dec)⟩
      | ok i =>
        obtain ⟨t, ht⟩ := exec_next_of_sp_le (s := s.atInstr) bound i
        exact ⟨t.endEvent, by rw [step_running ev mode fetch dec, ht, endOutcome_next]⟩
    · exact ⟨_, step_fetchFailed ev mode fetch⟩

/-- A load has a next state while its window is open (70_reset_and_hazards.md R119). -/
theorem step_load_next {s : State} {bytes : List Byte} (ev : s.nextEvent = .load bytes) (window : s.loadWindow = true) :
    ∃ t, step s = .next t := by
  rw [step_of_nextEvent ev, deliver, State.loadBody, if_pos (by exact window)]
  split <;> exact ⟨_, rfl⟩

/-- A load is refused when its window is closed (70_reset_and_hazards.md R119). -/
theorem step_load_refused {s : State} {bytes : List Byte} (ev : s.nextEvent = .load bytes) (closed : s.loadWindow = false) :
    step s = .refused .loadOutsideWindow := by
  rw [step_of_nextEvent ev, deliver, State.loadBody, if_neg (by exact ne_true_of_eq_false closed)]
  rfl

/-- Settles O48, event by event. -/
theorem stepStopsOnlyOnALateLoad : Obligations.StepStopsOnlyOnALateLoad := by
  intro s inv
  cases ev : s.nextEvent with
  | instr => exact .inl (step_instr_next ev inv.sp)
  | timer => exact .inl ⟨_, step_of_nextEvent ev⟩
  | keys k => exact .inl ⟨_, step_of_nextEvent ev⟩
  | reset => exact .inl ⟨_, step_of_nextEvent ev⟩
  | load bytes =>
    cases window : s.loadWindow with
    | true => exact .inl (step_load_next ev window)
    | false => exact .inr ⟨step_load_refused ev window, rfl, bytes, rfl⟩

/-! ## Runs whose loads come first -/

/-- A step takes its event off the schedule and leaves the rest (log 1). -/
theorem step_schedule {s t : State} (h : step s = .next t) : t.schedule = s.schedule.tail := by
  cases step_cases h with
  | polled ev mode heq =>
    subst heq
    obtain hpoll | ⟨k, -, hpoll⟩ := s.atInstr.keyPoll_cases
    · rw [hpoll]; rfl
    · rw [hpoll]; rfl
  | unrecognized ev mode fetch dec heq =>
    subst heq
    obtain ⟨-, hword⟩ | hword := s.atInstr.unrecognized_cases s.wordAtPc
    · rw [hword]; rfl
    · rw [hword]; rfl
  | executed i u ev mode fetch dec ex heq =>
    subst heq
    obtain ⟨-, schedule, -⟩ := exec_eventFields ex
    exact schedule
  | timer ev heq => subst heq; rw [State.timerBody_eq]; rfl
  | loaded bytes ev window fits heq => subst heq; rw [State.putBytes_eq]; rfl
  | idle _ _ heq | fetchFailed _ _ _ heq | keys _ _ heq | reset _ heq | tooLarge _ _ _ _ heq => subst heq; rfl

/-- A load leaves its window open (log 7). -/
theorem step_load_window {s t : State} {bytes : List Byte} (h : step s = .next t) (ev : s.nextEvent = .load bytes) :
    t.loadWindow = true := by
  cases step_cases h with
  | loaded _ _ window fits heq => subst heq; rw [State.putBytes_eq]; exact window
  | tooLarge _ _ window big heq => subst heq; exact window
  | idle ev' | polled ev' | fetchFailed ev' | unrecognized ev' | executed _ _ ev' | timer ev' | keys _ ev' | reset ev' =>
    exact nomatch ev.symm.trans ev'

/-- The events to come are loads and then others, and while there are loads their window is open (70_reset_and_hazards.md
R119). -/
def State.LoadsFirst (s : State) : Prop :=
  ∃ (images : List (List Byte)) (events : List Event), s.schedule = images.map .load ++ events ∧
    (∀ bytes, Event.load bytes ∉ events) ∧ (images ≠ [] → s.loadWindow = true)

/-- Every step keeps the loads in front. -/
theorem State.LoadsFirst.step {s t : State} (h : s.LoadsFirst) (hstep : Machine.step s = .next t) : t.LoadsFirst := by
  obtain ⟨images, events, schedule, noLoad, -⟩ := h
  have rest := step_schedule hstep
  cases images with
  | nil =>
    refine ⟨[], events.tail, by rw [rest, schedule]; rfl, fun bytes hmem => ?_, nofun⟩
    exact noLoad bytes (List.mem_of_mem_tail hmem)
  | cons bytes images =>
    have ev : s.nextEvent = .load bytes := by rw [State.nextEvent, schedule]; rfl
    exact ⟨images, events, by rw [rest, schedule]; rfl, noLoad, fun _ => step_load_window hstep ev⟩

/-- With the loads in front a load finds its window open. -/
theorem State.LoadsFirst.window {s : State} (h : s.LoadsFirst) {bytes : List Byte} (ev : s.nextEvent = .load bytes) :
    s.loadWindow = true := by
  obtain ⟨images, events, schedule, noLoad, window⟩ := h
  apply window
  rintro rfl
  rw [State.nextEvent, schedule] at ev
  cases events with
  | nil => cases ev
  | cons e events => exact noLoad bytes (ev ▸ List.mem_cons_self)

/-- Right after the first reset the invariant holds (70_reset_and_hazards.md R118). -/
theorem inv_boot {c : Config} (hc : c.Valid) (events : List Event) : Inv (State.boot c events) :=
  inv_endEvent_afterReset hc _ _ _

/-- A run that begins with its loads has the invariant and its loads in front all along. -/
theorem Reachable.inv_and_loadsFirst {c : Config} {images : List (List Byte)} {events : List Event} (hc : c.Valid)
    (noLoad : ∀ bytes, Event.load bytes ∉ events) {s : State} (h : Reachable c (images.map .load ++ events) s) :
    Inv s ∧ s.LoadsFirst := by
  induction h with
  | boot => exact ⟨inv_boot hc _, images, events, rfl, noLoad, fun _ => rfl⟩
  | step _ hstep ih =>
    obtain ⟨inv, loads⟩ := ih
    exact ⟨everyStepKeepsTheInvariant _ _ inv hstep, loads.step hstep⟩

/-- Settles O49: only a late load stops a state with the invariant, and no load of such a run is late. -/
theorem runsWithLoadsFirstNeverStop : Obligations.RunsWithLoadsFirstNeverStop := by
  intro c images events hc noLoad s reach
  obtain ⟨inv, loads⟩ := reach.inv_and_loadsFirst hc noLoad
  obtain goes | ⟨-, closed, bytes, ev⟩ := stepStopsOnlyOnALateLoad s inv
  · exact goes
  · exact absurd (loads.window ev) (by rw [closed]; decide)

end Sys2Proof.Machine
end

section
/-! PROOFS. Reset and loading (70_reset_and_hazards.md): the state a reset leaves, field by field, what a load in its window
leaves, and from these the two events and the invariant right after reset. -/

namespace Sys2Proof.Machine

/-! ## Reset -/

/-- A `ResetEvent` leaves the initial values around what it keeps, whatever the state (70_reset_and_hazards.md R118). -/
theorem step_reset {s : State} (ev : s.nextEvent = .reset) :
    step s = .next (State.afterReset s.cfg s.keys s.randDraws s.schedule.tail) := step_of_nextEvent ev

/-- The reset contents of the first 80 cells are the glyphs (20_memory.md R37). -/
theorem resetByte_of_font (c : Config) (a : Fin 80) : resetByte c a = c.font[a] := by
  have ha : fontBase ≤ a ∧ a < fontBase + 80 := ⟨Nat.zero_le _, by simp [fontBase]⟩
  rw [resetByte, dif_pos ha]
  rfl

/-- The reset contents past the glyphs are 0 (70_reset_and_hazards.md R118). -/
theorem resetByte_past_font (c : Config) {a : Nat} (ha : 80 ≤ a) : resetByte c a = 0 := by
  rw [resetByte, dif_neg (by simp only [fontBase]; omega)]

/-- Settles O13. -/
theorem resetEventPutsTheInitialValues : Obligations.ResetEventPutsTheInitialValues := by
  intro s ev
  have registers : ∀ j : RegIdx, (State.afterReset s.cfg s.keys s.randDraws s.schedule.tail).getV j = 0 := fun j =>
    Vector.getElem_replicate j.isLt
  have stack : ∀ j : Fin 16, (Vector.replicate 16 (0 : Word))[j] = 0 := fun j => Vector.getElem_replicate j.isLt
  exact ⟨_, step_reset ev, registers, stack, rfl, rfl, rfl, rfl, rfl, rfl, rfl, rfl, blankFramebuffer_pixel s.cfg,
    blankFramebuffer_wf s.cfg, rfl, rfl, resetByte_of_font s.cfg, fun _ => resetByte_past_font s.cfg, rfl, rfl, rfl, rfl,
    rfl, rfl⟩

/-- Settles O46: `State.reset` is the boot of this hardware's configuration with no event to come. -/
theorem resetStateMeetsTheInvariant : Obligations.ResetStateMeetsTheInvariant :=
  have hardware : Config.hardware.Valid := by decide
  ⟨inv_boot hardware [], fun _ events hc => inv_boot hc events⟩

/-! ## Loading -/

/-- The state a load finds: the event is taken, and the pulses of the one before are over (log 1, 5, 6). -/
def State.atLoad (s : State) : State := { s with schedule := s.schedule.tail }.beginEvent

/-- An image that fits is stored from 0x200 on (70_reset_and_hazards.md R119). -/
theorem step_load_fits {s : State} {bytes : List Byte} (ev : s.nextEvent = .load bytes) (window : s.loadWindow = true)
    (fits : progBase + bytes.length ≤ memSize) : step s = .next (s.atLoad.putBytes progBase bytes).endEvent := by
  rw [step_of_nextEvent ev, deliver, State.loadBody, if_pos (by exact window), if_neg (Nat.not_lt.2 fits)]
  rfl

/-- An image that does not fit is reported and not stored (70_reset_and_hazards.md R119). -/
theorem step_load_tooLarge {s : State} {bytes : List Byte} (ev : s.nextEvent = .load bytes) (window : s.loadWindow = true)
    (big : memSize < progBase + bytes.length) : step s = .next { s.atLoad with loadTooLarge := true }.endEvent := by
  rw [step_of_nextEvent ev, deliver, State.loadBody, if_pos (by exact window), if_pos big]
  rfl

/-- Settles O14. -/
theorem loadEventPlacesTheImage : Obligations.LoadEventPlacesTheImage := by
  intro s bytes ev
  refine ⟨fun window fits hm => ?_, step_load_tooLarge ev, step_load_refused ev⟩
  have form : Memory.wf s.atLoad.cfg s.atLoad.mem := hm
  refine ⟨_, step_load_fits ev window fits, ?frame, fun k hk => ?image, fun a ha => ?others⟩
  case frame => rw [State.putBytes_eq]; rfl
  case image => exact (State.byteAt_putBytes_add form fits hk).trans (List.getD_eq_getElem bytes 0 hk)
  case others => exact State.byteAt_of_stored_outside form rfl (State.putBytes_cfg ..) fits ha

end Sys2Proof.Machine
end
